-- ==== Sys2Proof/Word.lean ====
section
/-! DEFINITION. The words of RDS-CORE: the value types the spec gives a width (10_state.md R20,
20_memory.md R63 to R66, 44_syndrome_fec.md R220). Nothing here is specific to one command. -/

namespace Sys2Proof

/-- One value of the numeric domain `Num` (00_scope.md R9). A `Num` is presented and held whole
(20_memory.md R66). The reference domain is a set of 64-bit patterns; another domain may have any
number of values, and the spec gives them no form, so a value of it is known by a number. Log
entry 1 says how a domain uses this carrier. -/
inductive NumVal where
  /-- The IEEE 754 binary64 number with this pattern. -/
  | bits (p : BitVec 64)
  /-- The value with this number of another domain. No number of the reference domain. -/
  | code (n : Nat)
  deriving DecidableEq, Repr, Inhabited

/-- The 16-bit command word `cw[15:0]` (30_encoding.md R80). -/
abbrev CommandWord := BitVec 16

/-- The 26-bit sliding window, bit 0 the most recent data bit (10_state.md R28). -/
abbrev Window := BitVec 26

/-- A 10-bit syndrome, offset constant or offset word (44_syndrome_fec.md R220). -/
abbrev Syndrome := BitVec 10

/-- A 16-bit block payload, bit 15 the first-received bit (20_memory.md R65). -/
abbrev Payload := BitVec 16

end Sys2Proof
end

