-- ==== Sys2Proof/Syntax.lean ====
section
/-! DEFINITION. The commands of RDS-CORE (30_encoding.md R82), one constructor per row of
spec/opcode_table.json, and the assembler lines of 30_encoding.md R89 to R93, which expand to
presented commands. -/

namespace Sys2Proof

/-- A decoded command. The fields are those of the command word (30_encoding.md R83, R84); the
numeric operands `op0`, `op1` are not part of the word and stay in the command port (R80). -/
inductive Instr where
  /-- `RESET` (40_command_model.md R105). -/
  | reset
  /-- `PLL re, im` (41_carrier_tracker.md R121). -/
  | pll
  /-- `PLLEND` (41_carrier_tracker.md R132). -/
  | pllend
  /-- `SQR x` (42_bitsync_demod.md R150). -/
  | sqr
  /-- `SYNC mf, sync` (42_bitsync_demod.md R152). -/
  | sync
  /-- `BIT b` (43_block_sync.md R170), `b = cw[4]`. -/
  | bit (b : Bool)
  /-- `CHECK o, f` (44_syndrome_fec.md R210), `o = cw[6:4]`, `f = cw[7]`. -/
  | check (o : Fin 8) (f : Bool)
  deriving DecidableEq, Repr

/-- One presented command: the command word and the two operand values, all three together
(30_encoding.md R80). -/
structure Command where
  cw : CommandWord
  op0 : NumVal
  op1 : NumVal
  deriving DecidableEq, Repr

/-- A numeric literal `± m * 10^e` (30_encoding.md R89). -/
structure Literal where
  negative : Bool
  mantissa : Nat
  exponent : Int
  deriving DecidableEq, Repr

/-- The offset names of 30_encoding.md R89; `CP` is C'. -/
inductive OffsetName where
  | A | B | C | CP | D
  deriving DecidableEq, Repr

/-- The offset operand of a `CHECK` line: an index or a name. -/
inductive CheckOffset where
  | index (o : Nat)
  | name (n : OffsetName)
  deriving DecidableEq, Repr

/-- One assembler line: a command (30_encoding.md R89) or a pseudo-instruction (R90 to R93). -/
inductive AsmLine where
  | reset
  | pll (re im : Literal)
  | pllend
  | sqr (x : Literal)
  | sync (mf sync : Literal)
  | bit (b : Nat)
  | check (o : CheckOffset) (f : Nat)
  /-- `BITS v, n` (R90). -/
  | bits (v n : Nat)
  /-- `SAMPLES (re0, im0), ..., (reN, imN)` (R91). -/
  | samples (pairs : List (Literal × Literal))
  /-- `BLOCK p, o` (R92). -/
  | block (p : Nat) (o : OffsetName)
  /-- `GROUP a, b, c, d` (R93). -/
  | group (a b c d : Nat)
  deriving DecidableEq, Repr

end Sys2Proof
end

