-- ==== Sys2Proof/WellFormed.lean ====
section
/-! DEFINITION. Well-formedness. A decoded command carries its field ranges in its types
(30_encoding.md R83, R84: a 1-bit `b`, a 3-bit `o`, a 1-bit `f`), so `Instr.wf` holds of every
`Instr`; the assembler lines carry plain numbers and are checked here (30_encoding.md R89 to R93). -/

namespace Sys2Proof

/-- The fields of a command fit the bits its format gives them (30_encoding.md R83, R84). -/
def Instr.wf : Instr → Bool
  | .reset => true
  | .pll => true
  | .pllend => true
  | .sqr => true
  | .sync => true
  | .bit b => decide (b.toNat < 2)
  | .check o f => decide (o.val < 8) && decide (f.toNat < 2)

/-- The offset operand of `CHECK`: an index 0..7, or one of the five names. -/
def CheckOffset.wf : CheckOffset → Bool
  | .index o => decide (o < 8)
  | .name _ => true

/-- The operand ranges of an assembler line (30_encoding.md R89 to R93). -/
def AsmLine.wf : AsmLine → Bool
  | .reset => true
  | .pll _ _ => true
  | .pllend => true
  | .sqr _ => true
  | .sync _ _ => true
  | .bit b => decide (b < 2)
  | .check o f => o.wf && decide (f < 2)
  | .bits v n => decide (1 ≤ n) && decide (n ≤ 64) && decide (v < 2 ^ n)
  | .samples pairs => !pairs.isEmpty
  | .block p _ => decide (p < 2 ^ 16)
  | .group a b c d => decide (a < 2 ^ 16) && decide (b < 2 ^ 16) && decide (c < 2 ^ 16) && decide (d < 2 ^ 16)

end Sys2Proof
end

