-- ==== Sys2Proof/Decode.lean ====
section
/-! DEFINITION. Decoding the command word (30_encoding.md R81 to R88), total on all 65536 words and
rejecting by name, and the encoder (R82, R89) written from the same table. -/

namespace Sys2Proof

/-- What a command word spells: a command, or one of the two refusals of 30_encoding.md R88. -/
inductive Decoded where
  | command (i : Instr)
  | reservedOpcode
  | reservedBits
  deriving DecidableEq, Repr

/-- `cw[3:0]`, the opcode (30_encoding.md R81). -/
def opcodeField (cw : CommandWord) : Nat := (cw.extractLsb' 0 4).toNat

/-- `cw[4]`, the data bit of format B (30_encoding.md R83). -/
def dataBitField (cw : CommandWord) : Bool := cw.getLsbD 4

/-- `cw[6:4]`, the offset index of format K (30_encoding.md R84). -/
def offsetField (cw : CommandWord) : Fin 8 := (cw.extractLsb' 4 3).toFin

/-- `cw[7]`, the FEC enable of format K (30_encoding.md R84). -/
def fecField (cw : CommandWord) : Bool := cw.getLsbD 7

/-- The command, unless a reserved bit is set: the bits from `lo` up (30_encoding.md R87). -/
def unlessReserved (cw : CommandWord) (lo : Nat) (i : Instr) : Decoded :=
  if cw >>> lo = 0#16 then .command i else .reservedBits

/-- Decoding (30_encoding.md R88). -/
def decode (cw : CommandWord) : Decoded :=
  match opcodeField cw with
  | 1 => unlessReserved cw 4 .reset
  | 2 => unlessReserved cw 4 .pll
  | 3 => unlessReserved cw 4 .pllend
  | 4 => unlessReserved cw 4 .sqr
  | 5 => unlessReserved cw 4 .sync
  | 6 => unlessReserved cw 5 (.bit (dataBitField cw))
  | 7 => unlessReserved cw 8 (.check (offsetField cw) (fecField cw))
  | _ => .reservedOpcode

/-- The command word of a command (30_encoding.md R82, R89). -/
def encode : Instr → CommandWord
  | .reset => 0x0001#16
  | .pll => 0x0002#16
  | .pllend => 0x0003#16
  | .sqr => 0x0004#16
  | .sync => 0x0005#16
  | .bit b => 0x0006#16 ||| BitVec.ofNat 16 (16 * b.toNat)
  | .check o f => 0x0007#16 ||| BitVec.ofNat 16 (16 * o.val + 128 * f.toNat)

/-- The command this decoder reads from a row of the opcode table with bits `w`. A command word is
one 16-bit value with no further operand words (30_encoding.md R80), so a `w` with a bit above
bit 15 is no command word. -/
def decodeTableWord (nbits w : Nat) : Option Instr :=
  if nbits = 16 ∧ w < 2 ^ 16 then
    match decode (BitVec.ofNat 16 w) with
    | .command i => some i
    | .reservedOpcode => none
    | .reservedBits => none
  else none

end Sys2Proof
end

