-- ==== Sys2Proof/Config.lean ====
section
/-! DEFINITION. The configuration of RDS-CORE (00_scope.md R6, 10_state.md R27): fixed at
construction, written by no command. Every `OPEN` parameter is a field, so that a statement about
every state is a statement about every configuration (log entry 2). The two parameters that are
functions, `Num` and `SINCOS`, are arguments too, but a field is plain data: the reference value of
each is chosen by name and computed, and any other is the member with a given number of an opaque
family, of which nothing in Lean can evaluate a member or prove two equal or different (log entries
1 and 3). -/

namespace Sys2Proof

/-- The primitives of a numeric domain and its roundings of the three real constants (00_scope.md
R9, R11). `a > b` is written `lt b a` and `a >= b` is written `le b a`. The decimal literals of the
rules, `num(0)`, `num(1)` and `K_ATAN`, are not fields: they are `num` of their decimals
(`NumOps.zero`, `NumOps.one`, `NumOps.kAtan`). -/
structure NumOps where
  add : NumVal → NumVal → NumVal
  sub : NumVal → NumVal → NumVal
  mul : NumVal → NumVal → NumVal
  div : NumVal → NumVal → NumVal
  neg : NumVal → NumVal
  abs : NumVal → NumVal
  floor : NumVal → NumVal
  lt : NumVal → NumVal → Bool
  le : NumVal → NumVal → Bool
  eq : NumVal → NumVal → Bool
  isFinite : NumVal → Bool
  /-- `ofDecimal negative m e` is `num(± m * 10^e)` (00_scope.md R9), with `m` no multiple of 10, or
  `m = 0` and `e = 0`; `NumOps.num` brings every decimal to this one form. -/
  ofDecimal : Bool → Nat → Int → NumVal
  pi : NumVal
  piHalf : NumVal
  twoPi : NumVal
  deriving Inhabited

/-- The parameter `Num` (92_eei_decisions.md D4, OPEN). -/
inductive NumDomain where
  /-- The reference value: IEEE 754 binary64, round to nearest even. -/
  | binary64
  /-- Any other domain: number `k` of the opaque family `freeNumOps`. -/
  | uninterpreted (k : Nat)
  deriving DecidableEq, Repr

/-- The parameter `SINCOS` (92_eei_decisions.md D6, OPEN). -/
inductive SincosChoice where
  /-- The reference value: correctly rounded sine and cosine. -/
  | reference
  /-- Any other function of the argument alone: number `k` of the opaque family `freeSincos`. -/
  | uninterpreted (k : Nat)
  deriving DecidableEq, Repr

/-- The primitives of the domains other than binary64: free values, nothing constrains them. -/
opaque freeNumOps : Nat → NumOps

/-- The sine/cosine functions other than the reference one: free values, which nothing constrains
but the finiteness 41_carrier_tracker.md R131 fixes and `Machine.sincosOf` keeps. -/
opaque freeSincos : Nat → NumVal → NumVal × NumVal

/-- The correctly rounded sine and cosine of the domains other than binary64: free values, since the
spec does not say how such a domain rounds; `Machine.sincosOf` keeps what R131 says of them. -/
opaque freeReferenceSincos : Nat → NumVal → NumVal × NumVal

/-- The configuration of 00_scope.md R6, less its fixed entries. -/
structure Config where
  /-- `Num`. -/
  domain : NumDomain
  /-- `SINCOS`. -/
  sincos : SincosChoice
  /-- `ALPHA`, the phase gain of the loop. -/
  alpha : NumVal
  /-- `BETA`, the frequency gain of the loop. -/
  beta : NumVal
  /-- `FREQ_CENTER`, radians per sample. -/
  freqCenter : NumVal
  /-- `FREQ_RANGE`, radians per sample. -/
  freqRange : NumVal
  /-- `BLOCK_ERROR_LIMIT`. -/
  blockErrorLimit : Nat
  /-- `DEMOTE_CLEARS_WINDOW`. -/
  demoteClearsWindow : Bool
  deriving DecidableEq, Repr

/-- The name recorded by `X_BAD_CONFIG` (60_exceptions.md R244): a parameter, or an endpoint. -/
inductive ConfigParam where
  | alpha | beta | freqCenter | freqRange | lo | hi | blockErrorLimit
  deriving DecidableEq, Repr

/-- The configuration of every test vector (95_test_vectors.md section 0): `num(0.1)`,
`num(0.0025)`, `num(0)`, `num(0.01)`, limit 5, window kept on demotion. DESIGN CHOICE (log
entry 2): the spec gives no reference value for the four loop constants. -/
def Config.reference : Config where
  domain := .binary64
  sincos := .reference
  alpha := .bits 0x3FB999999999999A#64
  beta := .bits 0x3F647AE147AE147B#64
  freqCenter := .bits 0x0000000000000000#64
  freqRange := .bits 0x3F847AE147AE147B#64
  blockErrorLimit := 5
  demoteClearsWindow := false

end Sys2Proof
end

