-- ==== Sys2Proof/Machine/Binary64.lean ====
section
/-! DEFINITION. The reference numeric domain: IEEE 754 binary64, round to nearest even
(00_scope.md R6, R9; 92_eei_decisions.md D4). Every finite value is an integer multiple of
2^-1074, so each primitive is computed exactly on integers and rounded once, by `roundMag`. What
the spec does not say of NaNs and of the sign of a zero result is log entry 8. -/

namespace Sys2Proof.Machine.Binary64

/-- A binary64 number: its 64-bit pattern. -/
abbrev Pattern := BitVec 64

/-- The sign bit: bit 63. -/
def signOf (x : Pattern) : Bool := x.getLsbD 63

/-- The pattern without its sign: exponent field and fraction field. -/
def magBits (x : Pattern) : Nat := x.toNat % 2 ^ 63

/-- The pattern of +infinity, which is also the least pattern that is not finite. -/
def infBits : Nat := 0x7FF0000000000000

def isFinite (x : Pattern) : Bool := decide (magBits x < infBits)

def isInf (x : Pattern) : Bool := decide (magBits x = infBits)

def isNaN (x : Pattern) : Bool := decide (infBits < magBits x)

/-- The sign and magnitude pattern put together. -/
def pack (negative : Bool) (bits : Nat) : Pattern :=
  BitVec.ofNat 64 (if negative then 2 ^ 63 + bits else bits)

/-- The NaN a primitive answers. No rule reads more of it than that it is not finite. -/
def quietNaN : Pattern := 0x7FF8000000000000#64

/-- The magnitude of a finite value in units of 2^-1074. -/
def magnitude (x : Pattern) : Nat :=
  let e := magBits x / 2 ^ 52
  let f := magBits x % 2 ^ 52
  if e = 0 then f else (2 ^ 52 + f) * 2 ^ (e - 1)

/-- A finite value in units of 2^-1074. -/
def scaled (x : Pattern) : Int :=
  if signOf x then -(magnitude x : Int) else (magnitude x : Int)

/-- The pattern of the magnitude `n / d` (in units of 2^-1074, `0 < d`) rounded to nearest, ties to
even; a magnitude that rounds past the largest finite value is infinity. With `m` the rounded
quotient by `2^k * d`, the pattern is `k * 2^52 + m` for normal and subnormal results alike. -/
def roundMag (n d : Nat) : Nat :=
  let k := Nat.log2 (n / d) - 52
  let d' := d * 2 ^ k
  let m := n / d'
  let r := n % d'
  let m' := if d' < 2 * r ∨ (2 * r = d' ∧ m % 2 = 1) then m + 1 else m
  min (k * 2 ^ 52 + m') infBits

def neg (x : Pattern) : Pattern := x ^^^ (1#64 <<< 63)

def abs (x : Pattern) : Pattern := pack false (magBits x)

def add (x y : Pattern) : Pattern :=
  if isNaN x || isNaN y then quietNaN
  else if isInf x then (if isInf y && (signOf x != signOf y) then quietNaN else x)
  else if isInf y then y
  else
    let t := scaled x + scaled y
    if t = 0 then pack (signOf x && signOf y) 0
    else pack (decide (t < 0)) (roundMag t.natAbs 1)

def sub (x y : Pattern) : Pattern := add x (neg y)

def mul (x y : Pattern) : Pattern :=
  if isNaN x || isNaN y then quietNaN
  else if isInf x || isInf y then
    (if magBits x = 0 ∨ magBits y = 0 then quietNaN else pack (signOf x != signOf y) infBits)
  else pack (signOf x != signOf y) (roundMag (magnitude x * magnitude y) (2 ^ 1074))

def div (x y : Pattern) : Pattern :=
  if isNaN x || isNaN y then quietNaN
  else if isInf x then (if isInf y then quietNaN else pack (signOf x != signOf y) infBits)
  else if isInf y then pack (signOf x != signOf y) 0
  else if magBits y = 0 then
    (if magBits x = 0 then quietNaN else pack (signOf x != signOf y) infBits)
  else pack (signOf x != signOf y) (roundMag (magnitude x * 2 ^ 1074) (magnitude y))

/-- The order of the non-NaN values as an integer: the pattern with its sign, both zeros at 0. -/
def key (x : Pattern) : Int :=
  if signOf x then -(magBits x : Int) else (magBits x : Int)

def lt (x y : Pattern) : Bool := !isNaN x && !isNaN y && decide (key x < key y)

def le (x y : Pattern) : Bool := !isNaN x && !isNaN y && decide (key x ≤ key y)

def eq (x y : Pattern) : Bool := !isNaN x && !isNaN y && decide (key x = key y)

/-- The largest integer not above a finite value, with its sign: the floor of -0 is -0
(95_test_vectors.md V-WR-2). -/
def floor (x : Pattern) : Pattern :=
  if isFinite x then
    let t := scaled x / (2 ^ 1074 : Int)
    pack (signOf x) (roundMag (t.natAbs * 2 ^ 1074) 1)
  else x

/-- `num(± m * 10^e)`, rounded to nearest even (00_scope.md R9). -/
def ofDecimal (negative : Bool) (m : Nat) (e : Int) : Pattern :=
  pack negative (roundMag (m * 10 ^ e.toNat * 2 ^ 1074) (10 ^ (-e).toNat))

/-- A primitive of one operand on the whole carrier. A value that is no binary64 number counts as a
NaN: not finite, and false in every comparison (log entry 1). -/
def unary (f : Pattern → Pattern) : NumVal → NumVal
  | .bits a => .bits (f a)
  | .code _ => .bits quietNaN

/-- A primitive of two operands on the whole carrier. -/
def binary (f : Pattern → Pattern → Pattern) : NumVal → NumVal → NumVal
  | .bits a, .bits b => .bits (f a b)
  | .bits _, .code _ => .bits quietNaN
  | .code _, _ => .bits quietNaN

/-- A comparison on the whole carrier. -/
def compare (f : Pattern → Pattern → Bool) : NumVal → NumVal → Bool
  | .bits a, .bits b => f a b
  | .bits _, .code _ => false
  | .code _, _ => false

/-- `isFinite` on the whole carrier. -/
def finite : NumVal → Bool
  | .bits a => isFinite a
  | .code _ => false

/-- The reference domain, with the roundings of the real constants of 00_scope.md R11. -/
def ops : NumOps where
  add := binary add
  sub := binary sub
  mul := binary mul
  div := binary div
  neg := unary neg
  abs := unary abs
  floor := unary floor
  lt := compare lt
  le := compare le
  eq := compare eq
  isFinite := finite
  ofDecimal negative m e := .bits (ofDecimal negative m e)
  pi := .bits 0x400921FB54442D18#64
  piHalf := .bits 0x3FF921FB54442D18#64
  twoPi := .bits 0x401921FB54442D18#64

end Sys2Proof.Machine.Binary64
end

