-- ==== Sys2Proof/Machine/Sincos.lean ====
section
/-! DEFINITION. The reference value of `SINCOS` (00_scope.md R6, 41_carrier_tracker.md R131): sine
and cosine of a binary64 number, computed in fixed point far beyond binary64 and rounded once.
Log entry 3 says how far this is known to be the correctly rounded result. -/

namespace Sys2Proof.Machine.Sincos

open Sys2Proof.Machine.Binary64

/-- The integer part of pi * 2^1600. -/
def piFixed : Nat := 0x3243f6a8885a308d313198a2e03707344a4093822299f31d0082efa98ec4e6c89452821e638d01377be5466cf34e90c6cc0ac29b7c97c50dd3f84d5b5b54709179216d5d98979fb1bd1310ba698dfb5ac2ffd72dbd01adfb7b8e1afed6a267e96ba7c9045f12c7f9924a19947b3916cf70801f2e2858efc16636920d871574e69a458fea3f4933d7e0d95748f728eb658718bcd5882154aee7b54a41dc25a59b59c30d5392af26013c5d1b023286085f0ca417918b8db38ef8e79dcb0603a180e6c9e0e8bb01e8a3e

/-- The fraction bits of the series. -/
def fracBits : Nat := 320

/-- The alternating series `t - t * x2 / ((n+1) * (n+2)) + ...` in fixed point, `fuel` terms: from
`t = 1`, `n = 0` the cosine, from `t = r`, `n = 1` the sine, with `x2 = r * r`. -/
def series : Nat → Nat → Nat → Nat → Nat
  | 0, _, _, _ => 0
  | fuel + 1, n, t, x2 => t - series fuel (n + 2) (t * x2 / 2 ^ fracBits / ((n + 1) * (n + 2))) x2

/-- The quarter turn and the remainder (`fracBits` fraction bits) of a magnitude in units of
2^-1074. -/
def reduce (m : Nat) : Nat × Nat :=
  let x := m * 2 ^ (1600 - 1074)
  let quarter := piFixed / 2
  (x / quarter % 4, x % quarter / 2 ^ (1600 - fracBits))

/-- A magnitude with `fracBits` fraction bits rounded to binary64. -/
def rounded (negative : Bool) (v : Nat) : Pattern :=
  pack negative (roundMag (v * 2 ^ 1074) (2 ^ fracBits))

/-- `(sin x, cos x)`. Below 2^-27 both round to `(x, 1)`; an argument that is not finite has no
sine, and the answer is not finite. -/
def reference (x : Pattern) : Pattern × Pattern :=
  if !isFinite x then (quietNaN, quietNaN)
  else if magnitude x < 2 ^ (1074 - 27) then (x, 0x3FF0000000000000#64)
  else
    let q := reduce (magnitude x)
    let x2 := q.2 * q.2 / 2 ^ fracBits
    let s := series 48 1 q.2 x2
    let c := series 48 0 (2 ^ fracBits) x2
    match q.1 with
    | 0 => (rounded (signOf x) s, rounded false c)
    | 1 => (rounded (signOf x) c, rounded true s)
    | 2 => (rounded (!signOf x) s, rounded true c)
    | _ => (rounded (!signOf x) c, rounded false s)

end Sys2Proof.Machine.Sincos
end

