-- ==== Sys2Proof/Machine/NumDomain.lean ====
section
/-! DEFINITION. The configuration read: the decimal literals of a domain (00_scope.md R9, R11), the
primitives of the configured domain, the configured `SINCOS`, the derived constants `LO` and `HI`
(R7), and the refusal of a configuration that breaks a constraint (60_exceptions.md R245). -/

namespace Sys2Proof

/-- The one form of the decimal `m * 10^e`: `m` no multiple of 10, or `0 * 10^0`. Each round moves
one factor 10 into the exponent; a mantissa has at most as many as it has digits. -/
def stripTens : Nat → Nat → Int → Nat × Int
  | 0, m, e => (m, e)
  | fuel + 1, m, e => if m = 0 then (0, 0) else if m % 10 = 0 then stripTens fuel (m / 10) (e + 1) else (m, e)

/-- `num(q)` of the decimal `± m * 10^e`: one value for each decimal, however it is written
(00_scope.md R9). -/
def NumOps.num (N : NumOps) (l : Literal) : NumVal :=
  let d := stripTens (Nat.log2 l.mantissa + 1) l.mantissa l.exponent
  N.ofDecimal l.negative d.1 d.2

/-- `num(0)`. -/
def NumOps.zero (N : NumOps) : NumVal := N.num ⟨false, 0, 0⟩

/-- `num(1)`. -/
def NumOps.one (N : NumOps) : NumVal := N.num ⟨false, 1, 0⟩

/-- `K_ATAN = num(0.2854)` (00_scope.md R11). -/
def NumOps.kAtan (N : NumOps) : NumVal := N.num ⟨false, 2854, -4⟩

namespace Machine

/-- The primitives of a domain. -/
def numOpsOf : NumDomain → NumOps
  | .binary64 => Binary64.ops
  | .uninterpreted k => freeNumOps k

/-- A component of an uninterpreted `SINCOS` made finite where its argument is finite, the one bound
41_carrier_tracker.md R131 sets: a component that is not finite is replaced by the argument. -/
def keepFinite (N : NumOps) (x v : NumVal) : NumVal :=
  if N.isFinite x && !N.isFinite v then x else v

/-- Both components kept finite. -/
def keepFinitePair (N : NumOps) (x : NumVal) (v : NumVal × NumVal) : NumVal × NumVal :=
  (keepFinite N x v.1, keepFinite N x v.2)

/-- The reference `SINCOS` of binary64 on the whole carrier. -/
def binary64Sincos : NumVal → NumVal × NumVal
  | .bits p => (.bits (Sincos.reference p).1, .bits (Sincos.reference p).2)
  | .code _ => (.bits Binary64.quietNaN, .bits Binary64.quietNaN)

/-- The reference `SINCOS` of another domain: a free function, but `SINCOS(0) = (0, 1)` exactly
(41_carrier_tracker.md R131). -/
def otherReferenceSincos (k : Nat) (x : NumVal) : NumVal × NumVal :=
  let N := freeNumOps k
  if x = N.zero then (N.zero, N.one) else freeReferenceSincos k x

/-- `SINCOS` of a configuration, as `(s, c)` (41_carrier_tracker.md R131). -/
def sincosOf (c : Config) (x : NumVal) : NumVal × NumVal :=
  match c.domain, c.sincos with
  | .binary64, .reference => binary64Sincos x
  | .uninterpreted k, .reference => keepFinitePair (freeNumOps k) x (otherReferenceSincos k x)
  | d, .uninterpreted k => keepFinitePair (numOpsOf d) x (freeSincos k x)

/-- `LO = FREQ_CENTER - FREQ_RANGE`, one subtraction (00_scope.md R7). -/
def loOf (c : Config) : NumVal := (numOpsOf c.domain).sub c.freqCenter c.freqRange

/-- `HI = FREQ_CENTER + FREQ_RANGE`, one addition (00_scope.md R7). -/
def hiOf (c : Config) : NumVal := (numOpsOf c.domain).add c.freqCenter c.freqRange

/-- The first item of 60_exceptions.md R245 that holds, or none for an admissible configuration. The
order of R245's items is the spec's (R244). DESIGN CHOICE (log entry 16): where two parameters of ONE
item fail, the name is that of the one the item mentions first, alpha before beta before freqCenter
before freqRange, and lo before hi. -/
def badParam (c : Config) : Option ConfigParam :=
  let N := numOpsOf c.domain
  if !N.isFinite c.alpha then some .alpha
  else if !N.isFinite c.beta then some .beta
  else if !N.isFinite c.freqCenter then some .freqCenter
  else if !N.isFinite c.freqRange then some .freqRange
  else if N.lt c.freqRange N.zero then some .freqRange
  else if !N.isFinite (loOf c) then some .lo
  else if !N.isFinite (hiOf c) then some .hi
  else if 254 < c.blockErrorLimit then some .blockErrorLimit
  else none

end Machine

end Sys2Proof
end

