-- ==== Sys2Proof/Machine/State.lean ====
section
/-! DEFINITION. The state of RDS-CORE (10_state.md R20 to R35) as plain data, the reasons a step
stops (60_exceptions.md R243, R244), and the construction state (70_reset_and_hazards.md R270). -/

namespace Sys2Proof.Machine

/-- The commands that can fault (60_exceptions.md R243): the info a fault records. -/
inductive NumericCommand where
  | pll | sqr | sync
  deriving DecidableEq, Repr

/-- The faults (60_exceptions.md R243). Both are safe: the spec gives such a command no result, and
the machine stops with nothing written. -/
inductive Fault where
  /-- `F_NONFINITE_OPERAND`, raised by PLL, SQR and SYNC for an operand that is infinite or NaN. -/
  | nonfiniteOperand (c : NumericCommand)
  /-- `F_NONFINITE_RESULT`, raised by PLL, SQR and SYNC when a computed value is infinite or NaN. -/
  | nonfiniteResult (c : NumericCommand)
  deriving DecidableEq, Repr

/-- The refusals (60_exceptions.md R244). All are safe: the machine stops where the spec gives no
meaning. -/
inductive Refusal where
  /-- Raised by no command: exec would answer it for a row that had no meaning yet. -/
  | notModelled (mnemonic : String)
  /-- `X_RESERVED_OPCODE`, raised by the step for an opcode 0x0 or 0x8..0xF (30_encoding.md R86). -/
  | reservedOpcode (cw : CommandWord)
  /-- `X_RESERVED_BITS`, raised by the step for a reserved bit set (30_encoding.md R87). -/
  | reservedBits (cw : CommandWord)
  /-- `X_BAD_CONFIG`, raised at construction (60_exceptions.md R245). -/
  | badConfig (param : ConfigParam)
  deriving DecidableEq, Repr

/-- `S.nco` (10_state.md R21, R22). -/
structure Nco where
  phase : NumVal
  freq : NumVal
  deriving DecidableEq, Repr

/-- `S.bs` (10_state.md R23 to R26). -/
structure BitSync where
  lastSync : NumVal
  lastSlope : NumVal
  lastData : NumVal
  lastBit : Bool
  deriving DecidableEq, Repr

/-- The four states of the block/group state machine (10_state.md R29). -/
inductive DecodeState where
  | bitsync | blocksync | groupdecode | groupresync
  deriving DecidableEq, Repr

/-- `S.dec.goff` (10_state.md R32): it takes the values 0 and 4 only. -/
inductive GroupOffset where
  | zero | four
  deriving DecidableEq, Repr

/-- `S.dec` (10_state.md R29 to R33). -/
structure Dec where
  state : DecodeState
  /-- The bit position within the block, 0..25. -/
  bitcnt : Fin 26
  /-- The target block: A = 0, B = 1, C = 2, D = 3. -/
  block : Fin 4
  goff : GroupOffset
  /-- The 8-bit error counter. -/
  errcnt : BitVec 8
  deriving DecidableEq, Repr

/-- Four 16-bit words for blocks A, B, C (or C'), D: `S.data[0..3]` (10_state.md R34), and a
dispatched group (20_memory.md R65). -/
structure Group where
  a : Payload
  b : Payload
  c : Payload
  d : Payload
  deriving DecidableEq, Repr

/-- The response of a command: four optional fields (40_command_model.md R103). -/
structure Response where
  y : Option NumVal
  bit : Option Bool
  syn : Option Syndrome
  group : Option Group
  deriving DecidableEq, Repr

/-- The response with every field none. -/
def Response.none : Response := ⟨.none, .none, .none, .none⟩

/-- The state of RDS-CORE. `nco` to `data` are the hardware's fields and `fault`, `refused` the
bookkeeping of 10_state.md R35. The last four are the model's own: the configuration it runs under,
which no step writes (log entry 2), the commands the host has yet to present and the command now at
the port (log entry 4), and the response of the latest command (log entry 5). -/
structure State where
  nco : Nco
  bs : BitSync
  win : Window
  dec : Dec
  data : Group
  fault : Option Fault
  refused : Option Refusal
  cfg : Config
  program : List Command
  port : Command
  resp : Response
  deriving DecidableEq, Repr

/-- What BITSTEP reads and writes, and nothing else (43_block_sync.md R171): the window, the decode
state, the block data, and the group emitted so far in this step. -/
structure Decoder where
  win : Window
  dec : Dec
  data : Group
  group : Option Group
  deriving DecidableEq, Repr

/-- The construction state of a configuration (70_reset_and_hazards.md R270): every field at its
reset value, and `X_BAD_CONFIG` recorded if the configuration is refused. The values of `program`,
`port` and `resp` are the model's own (log entry 7). -/
def State.construct (c : Config) : State where
  nco := ⟨(numOpsOf c.domain).zero, c.freqCenter⟩
  bs := ⟨(numOpsOf c.domain).zero, (numOpsOf c.domain).zero, (numOpsOf c.domain).zero, false⟩
  win := 0#26
  dec := ⟨.bitsync, 0, 0, .zero, 0#8⟩
  data := ⟨0#16, 0#16, 0#16, 0#16⟩
  fault := none
  refused := (badParam c).map Refusal.badConfig
  cfg := c
  program := []
  port := ⟨0#16, (numOpsOf c.domain).zero, (numOpsOf c.domain).zero⟩
  resp := Response.none

/-- The machine right after reset, under the configuration of the test vectors (log entry 2). -/
def State.reset : State := State.construct Config.reference

end Sys2Proof.Machine
end

