-- ==== Sys2Proof/Machine/Ops.lean ====
section
/-! DEFINITION. The operations commands share: presenting a command, answering, reading the block
data, and recording a stop. RDS-CORE has no memory, no register file and no exception entry
(20_memory.md R60, 10_state.md R36, 60_exceptions.md R247); what stands in their place is the
recording of a fault or refusal (60_exceptions.md R241, R242). -/

namespace Sys2Proof.Machine

/-- The outcome of a command. -/
abbrev StepOutcome := Host.Outcome State Fault Refusal

/-- The primitives of the configured domain. -/
def ops (s : State) : NumOps := numOpsOf s.cfg.domain

/-- The port holds command `c`, and `rest` is still to be presented (40_command_model.md R101). -/
def present (s : State) (c : Command) (rest : List Command) : State :=
  { s with port := c, program := rest }

/-- A command starts with a response whose every field is none (40_command_model.md R103). -/
def clearResp (s : State) : State := { s with resp := Response.none }

/-- `respond y(v)` (00_scope.md R10). -/
def respondY (s : State) (v : NumVal) : State := { s with resp := { s.resp with y := some v } }

/-- `emit bit(d)` (00_scope.md R10). -/
def emitBit (s : State) (d : Bool) : State := { s with resp := { s.resp with bit := some d } }

/-- `respond syn(s)` (44_syndrome_fec.md R210). -/
def respondSyn (s : State) (v : Syndrome) : State := { s with resp := { s.resp with syn := some v } }

/-- The fields BITSTEP works on (43_block_sync.md R171). -/
def decoder (s : State) : Decoder := ⟨s.win, s.dec, s.data, s.resp.group⟩

/-- The fields BITSTEP works on, put back. -/
def setDecoder (s : State) (v : Decoder) : State :=
  { s with win := v.win, dec := v.dec, data := v.data, resp := { s.resp with group := v.group } }

/-- The encoding of the decode state for any readout (10_state.md R29). No command reads it back
(R37), so only a host's or a test's view uses it. -/
def readoutCode : DecodeState → Nat
  | .bitsync => 0
  | .blocksync => 1
  | .groupdecode => 2
  | .groupresync => 3

/-- `S.data[k]` (10_state.md R34). -/
def dataAt (g : Group) : Fin 4 → Payload
  | 0 => g.a
  | 1 => g.b
  | 2 => g.c
  | 3 => g.d

/-- `S.data[k] <- v` (10_state.md R34). -/
def setData (g : Group) (k : Fin 4) (v : Payload) : Group :=
  match k with
  | 0 => { g with a := v }
  | 1 => { g with b := v }
  | 2 => { g with c := v }
  | 3 => { g with d := v }

/-- The state 40_command_model.md R102 leaves: the next state; or, after a fault or refusal, the
state before the command with the stop recorded and every other field unchanged
(60_exceptions.md R241, R242). -/
def recordOutcome (s : State) (o : StepOutcome) : State :=
  match o with
  | .next t => t
  | .fault f => { s with fault := some f }
  | .refused x => { s with refused := some x }

/-- A stop already recorded: no command is stepped any more, and every further step answers that
stop again (40_command_model.md R102, log entry 6). -/
def quiescent (s : State) : Option StepOutcome :=
  match s.fault, s.refused with
  | some f, _ => some (.fault f)
  | none, some x => some (.refused x)
  | none, none => none

/-- The command the next step executes: what the word at the head of the program decodes to, and
the state with that command at the port. -/
def fetch (s : State) : Option (Decoded × State) :=
  match s.program with
  | [] => none
  | c :: rest => some (decode c.cw, present s c rest)

/-- A command word presented next, with `num(0)` for both operands (log entry 10). -/
def presentWord (s : State) (cw : CommandWord) : State :=
  { s with program := ⟨cw, (ops s).zero, (ops s).zero⟩ :: s.program }

end Sys2Proof.Machine
end

