-- ==== Sys2Proof/Machine/Tables.lean ====
section
/-! DEFINITION. The constant tables (10_state.md R40 to R43): immutable, written by no command. The
spec marks their values as general knowledge, not in its source (93_implementation_defined.md G2 to
G5; log entry 12). -/

namespace Sys2Proof.Machine

/-- `PARCKH[0..15]` (10_state.md R40): row i goes with window bit 15 - i. -/
def parckh : List Syndrome :=
  [0x2DC#10, 0x16E#10, 0x0B7#10, 0x287#10, 0x39F#10, 0x313#10, 0x355#10, 0x376#10,
   0x1BB#10, 0x201#10, 0x3DC#10, 0x1EE#10, 0x0F7#10, 0x2A7#10, 0x38F#10, 0x31B#10]

/-- `OFFSET_SYNDROME[0..7]` (10_state.md R41). -/
def offsetSyndrome : Fin 8 → Syndrome
  | 0 => 0x3D8#10
  | 1 => 0x3D4#10
  | 2 => 0x25C#10
  | 3 => 0x258#10
  | 4 => 0x3D8#10
  | 5 => 0x3D4#10
  | 6 => 0x3CC#10
  | 7 => 0x258#10

/-- `GPOLY`, the generator polynomial as an 11-bit value (10_state.md R42). -/
def gpoly : BitVec 11 := 0x5B9#11

/-- `OFFSET_WORD` (10_state.md R43): what a transmitter adds to the check bits. The core never
reads it; the assembler does. -/
def offsetWord : OffsetName → Syndrome
  | .A => 0x0FC#10
  | .B => 0x198#10
  | .C => 0x168#10
  | .CP => 0x350#10
  | .D => 0x1B4#10

/-- The index of an offset name in `OFFSET_SYNDROME` (30_encoding.md R89). -/
def offsetIndex : OffsetName → Fin 8
  | .A => 0
  | .B => 1
  | .C => 2
  | .CP => 6
  | .D => 3

/-- `GROUP_TYPE_BIT` (00_scope.md R6): the payload bit of block B that selects the group type. -/
def groupTypeBit : Nat := 11

end Sys2Proof.Machine
end

