-- ==== Sys2Proof/Machine/Flags.lean ====
section
/-! DEFINITION. RDS-CORE has no condition codes or status flags (10_state.md R36), and no command
writes one. This file holds the one-bit conditions the rules compute from values: the tests that
choose between outcomes and transitions. -/

namespace Sys2Proof.Machine

/-- Every value of a list is finite (60_exceptions.md R243). -/
def allFinite (N : NumOps) (vs : List NumVal) : Bool := vs.all N.isFinite

/-- Peak detection: `(slope < 0) and (prod < 0)` (42_bitsync_demod.md R153). -/
def peakDetected (N : NumOps) (slope prod : NumVal) : Bool := N.lt slope N.zero && N.lt prod N.zero

/-- Sign extraction: the raw bit is 1 if `lastData >= 0` (42_bitsync_demod.md R154). -/
def rawBit (N : NumOps) (lastData : NumVal) : Bool := N.le N.zero lastData

/-- The trap test of the Meggitt loop: top bit set, low five bits zero (44_syndrome_fec.md R215). -/
def burstTrapped (s : Syndrome) : Bool := s.getLsbD 9 && decide (s.extractLsb' 0 5 = 0#5)

/-- The group type bit of a block-B payload (43_block_sync.md R175). -/
def groupType (p : Payload) : Bool := p.getLsbD groupTypeBit

/-- Loss of lock: the counter exceeds `BLOCK_ERROR_LIMIT` (43_block_sync.md R191). -/
def limitExceeded (c : Config) (errcnt : BitVec 8) : Bool := decide (c.blockErrorLimit < errcnt.toNat)

end Sys2Proof.Machine
end

