-- ==== Sys2Proof/Machine/Syndrome.lean ====
section
/-! DEFINITION. The syndrome calculator and the Meggitt corrector: CHECK (44_syndrome_fec.md). -/

namespace Sys2Proof.Machine

/-- The loop of `SYN`: one parity row a payload-or-check bit, most significant first
(44_syndrome_fec.md R212). -/
def synLoop : List Syndrome → Syndrome → BitVec 16 → Syndrome
  | [], s, _ => s
  | row :: rows, s, blk => synLoop rows (if blk.getLsbD 15 then s ^^^ row else s) (blk <<< 1)

/-- `SYN(w)` (44_syndrome_fec.md R212). -/
def syn (w : Window) : Syndrome := synLoop parckh (w.extractLsb' 16 10) (w.extractLsb' 0 16)

/-- One iteration of the Meggitt loop at mask `m` (44_syndrome_fec.md R215). -/
def meggittStep (s : Syndrome) (w m : Window) : Syndrome × Window :=
  if burstTrapped s then (s <<< 1, w ^^^ m)
  else if s.getLsbD 9 then (((s.setWidth 11 <<< 1) ^^^ gpoly).setWidth 10, w)
  else (s <<< 1, w)

/-- `n` iterations, the mask moving down one place each (44_syndrome_fec.md R215). -/
def meggittLoop : Nat → Syndrome → Window → Window → Syndrome × Window
  | 0, s, w, _ => (s, w)
  | n + 1, s, w, m =>
    let r := meggittStep s w m
    meggittLoop n r.1 r.2 (m >>> 1)

/-- `MEGGITT(s, w)`: 16 iterations from window bit 25 (44_syndrome_fec.md R215, R216). -/
def meggitt (s : Syndrome) (w : Window) : Syndrome × Window := meggittLoop 16 s w (1#26 <<< 25)

/-- `CHECKBLOCK(win, off, fec)` (44_syndrome_fec.md R211). -/
def checkBlock (w : Window) (off : Syndrome) (fec : Bool) : Syndrome × Window :=
  let s := syn w ^^^ off
  if s ≠ 0#10 ∧ fec = true then meggitt s w else (s, w)

/-- `CHECK o, f` (44_syndrome_fec.md R210, also where 20_memory.md R69 says otherwise; log entry 17). -/
def execCheck (o : Fin 8) (f : Bool) (s : State) : StepOutcome :=
  let r := checkBlock s.win (offsetSyndrome o) f
  .next (respondSyn { clearResp s with win := r.2 } r.1)

end Sys2Proof.Machine
end

