-- ==== Sys2Proof/Machine/BlockSync.lean ====
section
/-! DEFINITION. The sliding window and the block/group state machine: BITSTEP and BIT
(43_block_sync.md). Each operation reads the values the operations before it wrote in the same step
(R171). -/

namespace Sys2Proof.Machine

/-- `((S.win << 1) | d) mod 2^26` (43_block_sync.md R172). -/
def shiftWindow (w : Window) (d : Bool) : Window := (w <<< 1) ||| (BitVec.ofBool d).setWidth 26

/-- `payload(w) = w[25:10]` (43_block_sync.md R173). -/
def payload (w : Window) : Payload := w.extractLsb' 10 16

/-- The value of `goff`: 0 or 4 (10_state.md R32). -/
def goffValue : GroupOffset → Nat
  | .zero => 0
  | .four => 4

/-- The offset a check of the target block compares against: entry `block + goff`
(43_block_sync.md R174). -/
def targetOffset (d : Dec) : Syndrome := offsetSyndrome (Fin.ofNat 8 (d.block.val + goffValue d.goff))

/-- STORE (43_block_sync.md R175). -/
def store (v : Decoder) : Decoder :=
  let p := payload v.win
  { v with
    data := setData v.data v.dec.block p
    dec := { v.dec with goff := if v.dec.block = 1 then (if groupType p then .four else .zero) else v.dec.goff } }

/-- The block advance, modulo 4 (43_block_sync.md R176). -/
def advance (v : Decoder) : Decoder := { v with dec := { v.dec with block := v.dec.block + 1 } }

/-- DISPATCH (43_block_sync.md R196). -/
def dispatch (v : Decoder) : Decoder := { v with group := some v.data }

/-- `S.dec.state <- st`. -/
def enter (v : Decoder) (st : DecodeState) : Decoder := { v with dec := { v.dec with state := st } }

/-- `S.dec.errcnt <- n`. -/
def setErrcnt (v : Decoder) (n : BitVec 8) : Decoder := { v with dec := { v.dec with errcnt := n } }

/-- DEMOTE (43_block_sync.md R197). -/
def demote (c : Config) (v : Decoder) : Decoder :=
  let u := enter v .bitsync
  if c.demoteClearsWindow then { u with win := 0#26 } else u

/-- ACQUIRE (43_block_sync.md R181). -/
def acquire (v : Decoder) : Decoder :=
  { v with
    data := { v.data with a := payload v.win }
    dec := { v.dec with block := 1, goff := .zero, bitcnt := 0, state := .blocksync } }

/-- Bit counting (43_block_sync.md R183): the 26th bit sets the counter to 0 and runs the state's
boundary action. -/
def countBit (boundary : Decoder → Decoder) (v : Decoder) : Decoder :=
  if h : v.dec.bitcnt.val + 1 < 26 then { v with dec := { v.dec with bitcnt := ⟨v.dec.bitcnt.val + 1, h⟩ } }
  else boundary { v with dec := { v.dec with bitcnt := 0 } }

/-- BITSYNC (43_block_sync.md R180). -/
def bitsyncArm (v : Decoder) : Decoder :=
  if (checkBlock v.win (offsetSyndrome 0) false).1 = 0#10 then acquire v else v

/-- A good block in BLOCKSYNC; when the advance wraps past D, the acquisition ends
(43_block_sync.md R185, R187). -/
def blocksyncGood (v : Decoder) : Decoder :=
  let u := advance (store v)
  if v.dec.block + 1 = 0 then enter (setErrcnt (dispatch u) 0#8) .groupdecode else u

/-- The boundary of BLOCKSYNC (43_block_sync.md R184 to R187). -/
def blocksyncBoundary (c : Config) (v : Decoder) : Decoder :=
  if (checkBlock v.win (targetOffset v.dec) false).1 = 0#10 then blocksyncGood v else demote c v

/-- A bad block in GROUPDECODE (43_block_sync.md R190 to R192). -/
def groupdecodeBad (c : Config) (v : Decoder) : Decoder :=
  let n := v.dec.errcnt + 1#8
  let u := setErrcnt v n
  if limitExceeded c n then demote c u
  else if v.dec.block + 1 = 0 then advance u
  else enter (advance u) .groupresync

/-- A good block in GROUPDECODE; when the advance wraps past D, the group is complete
(43_block_sync.md R193, R194). -/
def groupdecodeGood (v : Decoder) : Decoder :=
  let u := advance (store v)
  if v.dec.block + 1 = 0 then dispatch (setErrcnt u 0#8) else u

/-- The boundary of GROUPDECODE: the checked window, corrected or not, replaces the window
(43_block_sync.md R189). -/
def groupdecodeBoundary (c : Config) (v : Decoder) : Decoder :=
  let r := checkBlock v.win (targetOffset v.dec) true
  let u := { v with win := r.2 }
  if r.1 = 0#10 then groupdecodeGood u else groupdecodeBad c u

/-- The boundary of GROUPRESYNC (43_block_sync.md R195). -/
def groupresyncBoundary (v : Decoder) : Decoder :=
  if v.dec.block + 1 = 0 then enter (advance v) .groupdecode else advance v

/-- BITSTEP (43_block_sync.md R171) on the fields it works on: shift, then the one arm of the state
on entry. -/
def decoderStep (c : Config) (d : Bool) (v : Decoder) : Decoder :=
  let u := { v with win := shiftWindow v.win d }
  match v.dec.state with
  | .bitsync => bitsyncArm u
  | .blocksync => countBit (blocksyncBoundary c) u
  | .groupdecode => countBit (groupdecodeBoundary c) u
  | .groupresync => countBit groupresyncBoundary u

/-- BITSTEP on the whole state. -/
def bitStep (d : Bool) (s : State) : State := setDecoder s (decoderStep s.cfg d (decoder s))

/-- `BIT b` (43_block_sync.md R170). -/
def execBit (b : Bool) (s : State) : StepOutcome := .next (bitStep b (clearResp s))

end Sys2Proof.Machine
end

