-- ==== Sys2Proof/Machine/Operands.lean ====
section
/-! DEFINITION. The operand forms (30_encoding.md R82, R85): `op0` and `op1` of the presented
command, passed through unchanged under the names the commands give them. A command that ignores an
operand has no name for it here. -/

namespace Sys2Proof.Machine

/-- PLL: `re = op0`, the in-phase part. -/
def operandRe (s : State) : NumVal := s.port.op0

/-- PLL: `im = op1`, the quadrature part. -/
def operandIm (s : State) : NumVal := s.port.op1

/-- SQR: `x = op0`, the matched-filter sample. -/
def operandX (s : State) : NumVal := s.port.op0

/-- SYNC: `mf = op0`, the matched-filter sample. -/
def operandMf (s : State) : NumVal := s.port.op0

/-- SYNC: `sync = op1`, the resonant-filter sample. -/
def operandSync (s : State) : NumVal := s.port.op1

end Sys2Proof.Machine
end

