-- ==== Sys2Proof/Machine/BitSync.lean ====
section
/-! DEFINITION. The bit-sync detector and the differential demodulator: SQR and SYNC
(42_bitsync_demod.md). -/

namespace Sys2Proof.Machine

/-- `SQR x` (42_bitsync_demod.md R150). -/
def execSqr (s : State) : StepOutcome :=
  let N := ops s
  if N.isFinite (operandX s) then
    let q := N.mul (operandX s) (operandX s)
    if N.isFinite q then .next (respondY (clearResp s) q) else .fault (.nonfiniteResult .sqr)
  else .fault (.nonfiniteOperand .sqr)

/-- A detected peak: the raw bit, the differential decoding, and the forwarding of the data bit to
the state machine in the same step (42_bitsync_demod.md R154 to R156). -/
def demodulate (s : State) : State :=
  let raw := rawBit (ops s) s.bs.lastData
  let d := raw ^^ s.bs.lastBit
  bitStep d (emitBit { s with bs := { s.bs with lastBit := raw } } d)

/-- The history update, on every SYNC that does not fault (42_bitsync_demod.md R157). -/
def updateHistory (s : State) (mf sync slope : NumVal) : State :=
  { s with bs := { s.bs with lastSync := sync, lastSlope := slope, lastData := mf } }

/-- `SYNC mf, sync` (42_bitsync_demod.md R152). -/
def execSync (s : State) : StepOutcome :=
  let N := ops s
  if allFinite N [operandMf s, operandSync s] then
    let slope := N.sub (operandSync s) s.bs.lastSync
    let prod := N.mul s.bs.lastSlope slope
    if allFinite N [slope, prod] then
      let t := if peakDetected N slope prod then demodulate (clearResp s) else clearResp s
      .next (updateHistory t (operandMf s) (operandSync s) slope)
    else .fault (.nonfiniteResult .sync)
  else .fault (.nonfiniteOperand .sync)

end Sys2Proof.Machine
end

