-- ==== Sys2Proof/Machine/Carrier.lean ====
section
/-! DEFINITION. The carrier tracker: PLL, PLLEND and the fast arctangent (41_carrier_tracker.md).
Every expression is evaluated as the rules parenthesise it, one primitive at a time
(00_scope.md R9). -/

namespace Sys2Proof.Machine

/-- `fastAtan2(y, x)` (41_carrier_tracker.md R127 to R130). -/
def fastAtan2 (N : NumOps) (y x : NumVal) : NumVal :=
  if N.eq x N.zero then
    if N.lt N.zero y then N.piHalf
    else if N.eq y N.zero then N.zero
    else N.neg N.piHalf
  else
    let z := N.div y x
    if N.lt (N.abs z) N.one then
      let a := N.div z (N.add N.one (N.mul (N.mul N.kAtan z) z))
      if N.lt x N.zero then
        if N.lt y N.zero then N.sub a N.pi else N.add a N.pi
      else a
    else
      let a := N.sub N.piHalf (N.div z (N.add (N.mul z z) N.kAtan))
      if N.lt y N.zero then N.sub a N.pi else a

/-- `clamp(f1)`, the upper bound tested first (41_carrier_tracker.md R124). -/
def clamp (N : NumOps) (lo hi f1 : NumVal) : NumVal :=
  if N.lt hi f1 then hi else if N.lt f1 lo then lo else f1

/-- `wrap(p)`, the floored modulo into [0, TWO_PI) (41_carrier_tracker.md R133). A result equal to the
phase is the phase itself: "a phase already in [0, 2π) is returned unchanged" (R132). Under
binary64 this decides one case, the phase -0, which stays -0 (V-WR-2; log entry 9). -/
def wrap (N : NumOps) (p : NumVal) : NumVal :=
  let q := N.floor (N.div p N.twoPi)
  let r := N.sub p (N.mul N.twoPi q)
  if N.lt r N.zero || N.le N.twoPi r then N.zero else if N.eq r p then p else r

/-- The values PLL computes, in order (41_carrier_tracker.md R121). -/
structure PllValues where
  s : NumVal
  c : NumVal
  dre : NumVal
  dim : NumVal
  err : NumVal
  f1 : NumVal
  f2 : NumVal
  p1 : NumVal
  deriving DecidableEq, Repr

/-- Steps 1 to 5 of PLL for one sample under a configuration (41_carrier_tracker.md R121 to R125). -/
def pllValues (cfg : Config) (nco : Nco) (re im : NumVal) : PllValues :=
  let N := numOpsOf cfg.domain
  let sc := sincosOf cfg nco.phase
  let dre := N.sub (N.mul sc.2 re) (N.mul sc.1 im)
  let dim := N.add (N.mul sc.2 im) (N.mul sc.1 re)
  let err := N.neg (fastAtan2 N dim dre)
  let f1 := N.add nco.freq (N.mul cfg.beta err)
  let f2 := clamp N (loOf cfg) (hiOf cfg) f1
  let p1 := N.add nco.phase (N.add f2 (N.mul cfg.alpha err))
  { s := sc.1, c := sc.2, dre := dre, dim := dim, err := err, f1 := f1, f2 := f2, p1 := p1 }

/-- The values whose finiteness PLL tests (41_carrier_tracker.md R121). -/
def pllChecked (v : PllValues) : List NumVal := [v.s, v.c, v.dre, v.dim, v.err, v.f1, v.f2, v.p1]

/-- `PLL re, im` (41_carrier_tracker.md R121). -/
def execPll (s : State) : StepOutcome :=
  let N := ops s
  if allFinite N [operandRe s, operandIm s] then
    let v := pllValues s.cfg s.nco (operandRe s) (operandIm s)
    if allFinite N (pllChecked v) then
      .next (respondY { clearResp s with nco := ⟨v.p1, v.f2⟩ } v.dim)
    else .fault (.nonfiniteResult .pll)
  else .fault (.nonfiniteOperand .pll)

/-- `PLLEND` (41_carrier_tracker.md R132, also where 20_memory.md R69 says otherwise; log entry 17). -/
def execPllend (s : State) : StepOutcome :=
  .next { clearResp s with nco := { s.nco with phase := wrap (ops s) s.nco.phase } }

end Sys2Proof.Machine
end

