-- ==== Sys2Proof/Machine/Reset.lean ====
section
/-! DEFINITION. The system command RESET (40_command_model.md R105). -/

namespace Sys2Proof.Machine

/-- Re-acquisition: the NCO, bit-sync, window, decode and block-data fields at their reset values
(40_command_model.md R105). `fault`, `refused` and the configuration are kept. -/
def reacquire (s : State) : State :=
  { s with
    nco := ⟨(ops s).zero, s.cfg.freqCenter⟩
    bs := ⟨(ops s).zero, (ops s).zero, (ops s).zero, false⟩
    win := 0#26
    dec := ⟨.bitsync, 0, 0, .zero, 0#8⟩
    data := ⟨0#16, 0#16, 0#16, 0#16⟩ }

/-- `RESET` (40_command_model.md R105, also where 20_memory.md R69 says otherwise; log entry 17). -/
def execReset (s : State) : StepOutcome := .next (reacquire (clearResp s))

end Sys2Proof.Machine
end

