-- ==== Sys2Proof/Machine/Dispatch.lean ====
section
/-! DEFINITION. exec: one arm per command, each a direct call of its meaning. -/

namespace Sys2Proof.Machine

def exec (i : Instr) (s : State) : Host.Outcome State Fault Refusal :=
  match i with
  | .reset => Sys2Proof.Machine.execReset s
  | .pll => Sys2Proof.Machine.execPll s
  | .pllend => Sys2Proof.Machine.execPllend s
  | .sqr => Sys2Proof.Machine.execSqr s
  | .sync => Sys2Proof.Machine.execSync s
  | .bit b => Sys2Proof.Machine.execBit b s
  | .check o f => Sys2Proof.Machine.execCheck o f s

end Sys2Proof.Machine
end

