-- ==== Sys2Proof/Machine/Step.lean ====
section
/-! DEFINITION. One step of RDS-CORE (40_command_model.md R102) on the command the host presents
next, and how an instruction word is put where the next step takes it from. -/

namespace Sys2Proof.Machine

/-- One step (40_command_model.md R102): a recorded stop first, then decoding, then the command's
rule. With no command presented nothing happens (log entry 4). -/
def step (s : State) : Host.Outcome State Fault Refusal :=
  match quiescent s with
  | some stop => stop
  | none =>
    match fetch s with
    | none => .next s
    | some (.command i, t) => exec i t
    | some (.reservedOpcode, t) => .refused (.reservedOpcode t.port.cw)
    | some (.reservedBits, t) => .refused (.reservedBits t.port.cw)

/-- The command word `w` presented next (30_encoding.md R80: the word is 16 bits, whatever `nbits`),
ahead of whatever the host would have presented (log entry 10). -/
def State.withFetchWord (s : State) (_nbits w : Nat) : State := presentWord s (BitVec.ofNat 16 w)

end Sys2Proof.Machine
end

