-- ==== Sys2Proof/Machine/Assembler.lean ====
section
/-! DEFINITION. The assembler of 30_encoding.md R89 to R93: what commands a line presents. It is the
host's tool, not part of the core; the concrete text (spaces, comments, decimal digits) is not
modelled (log entry 11). -/

namespace Sys2Proof.Machine

/-- A numeric literal is read by `num` (30_encoding.md R89). -/
def literalNum (N : NumOps) (l : Literal) : NumVal := N.num l

/-- A command that reads no operand: `op0` and `op1` are ignored (30_encoding.md R82), and the
assembler presents `num(0)` for both. -/
def plain (N : NumOps) (i : Instr) : Command := ⟨encode i, N.zero, N.zero⟩

/-- Long division by `GPOLY`: the remainder of a 26-bit polynomial, `n` quotient bits to go. -/
def polyMod : Nat → Window → Window
  | 0, w => w
  | n + 1, w => polyMod n (if w.getLsbD (n + 10) then w ^^^ (gpoly.setWidth 26 <<< n) else w)

/-- `crc10(p) = (p(x) * x^10) mod g(x)` (30_encoding.md R92). -/
def crc10 (p : Payload) : Syndrome := (polyMod 16 (p.setWidth 26 <<< 10)).setWidth 10

/-- The 26-bit word `(p << 10) | (crc10(p) ^ OFFSET_WORD[o])` (30_encoding.md R92). -/
def blockWord (p : Payload) (o : OffsetName) : Window :=
  (p.setWidth 26 <<< 10) ||| (crc10 p ^^^ offsetWord o).setWidth 26

/-- The low `n` bits of `v`, most significant first (30_encoding.md R90). -/
def msbFirst (v : Nat) : Nat → List Bool
  | 0 => []
  | n + 1 => v.testBit n :: msbFirst v n

/-- The 26 bits of a block in arrival order (20_memory.md R63). -/
def wordBits (w : Window) : List Bool := msbFirst w.toNat 26

/-- The offset of a group's third block: C' when bit 11 of block B is set (30_encoding.md R93). -/
def thirdOffset (b : Payload) : OffsetName := if b.getLsbD groupTypeBit then .CP else .C

/-- The 104 bits of a group in arrival order (30_encoding.md R93). -/
def groupBits (a b c d : Payload) : List Bool :=
  wordBits (blockWord a .A) ++ wordBits (blockWord b .B) ++ wordBits (blockWord c (thirdOffset b))
    ++ wordBits (blockWord d .D)

/-- The commands a well-formed line expands to; none for a line that is not well-formed. -/
def assemble (N : NumOps) (line : AsmLine) : Option (List Command) :=
  if line.wf then
    some (match line with
      | .reset => [plain N .reset]
      | .pll re im => [⟨encode .pll, literalNum N re, literalNum N im⟩]
      | .pllend => [plain N .pllend]
      | .sqr x => [⟨encode .sqr, literalNum N x, N.zero⟩]
      | .sync mf sync => [⟨encode .sync, literalNum N mf, literalNum N sync⟩]
      | .bit b => [plain N (.bit (decide (b = 1)))]
      | .check (.index o) f => [plain N (.check (Fin.ofNat 8 o) (decide (f = 1)))]
      | .check (.name n) f => [plain N (.check (offsetIndex n) (decide (f = 1)))]
      | .bits v n => (msbFirst v n).map fun b => plain N (.bit b)
      | .samples pairs => pairs.map (fun p => ⟨encode .pll, literalNum N p.1, literalNum N p.2⟩) ++ [plain N .pllend]
      | .block p o => (wordBits (blockWord (BitVec.ofNat 16 p) o)).map fun b => plain N (.bit b)
      | .group a b c d =>
        (groupBits (BitVec.ofNat 16 a) (BitVec.ofNat 16 b) (BitVec.ofNat 16 c) (BitVec.ofNat 16 d)).map
          fun x => plain N (.bit x))
  else none

end Sys2Proof.Machine
end

