-- ==== Sys2Proof/Safety.lean ====
section
/-! DEFINITION. What a run is and when it is safe, in the terms claims use (40_command_model.md R106
to R108, 70_reset_and_hazards.md R271, R274). -/

namespace Sys2Proof.Machine

/-- At most `n` steps, stopping at the first fault or refusal (40_command_model.md R107). -/
def runSteps : Nat → State → StepOutcome
  | 0, s => .next s
  | n + 1, s =>
    match step s with
    | .next t => runSteps n t
    | .fault f => .fault f
    | .refused x => .refused x

/-- A run from `s` ends well: the host has presented every command of the program, every outcome was
a next state, and no stop is recorded, an empty program included (40_command_model.md R108,
60_exceptions.md R245). -/
def EndsWell (s : State) : Prop :=
  ∃ t, runSteps s.program.length s = .next t ∧ quiescent t = none

/-- What the host observes of the first `n` commands: each outcome with its response, the first
fault or refusal last (40_command_model.md R106). -/
def observe : Nat → State → List (Response ⊕ Fault ⊕ Refusal)
  | 0, _ => []
  | n + 1, s =>
    match s.program with
    | [] => []
    | _ :: _ =>
      match step s with
      | .next t => .inl t.resp :: observe n t
      | .fault f => [.inr (.inl f)]
      | .refused x => [.inr (.inr x)]

/-- A host: from the responses so far, the next command to present, or none to stop
(40_command_model.md R107). -/
abbrev HostPolicy := List Response → Option Command

/-- At most `n` commands of a host, each chosen after the response to the one before
(40_command_model.md R101, R107). `seen` holds the responses so far, in order. -/
def drive (h : HostPolicy) : Nat → List Response → State → StepOutcome
  | 0, _, s => .next s
  | n + 1, seen, s =>
    match h seen with
    | none => .next s
    | some c =>
      match step { s with program := [c] } with
      | .next t => drive h n (seen ++ [t.resp]) t
      | .fault f => .fault f
      | .refused x => .refused x

/-- The host's sample-block duties on a command sequence (70_reset_and_hazards.md R271, R274): every
run of PLL commands is closed by one PLLEND, and no RESET stands inside it. `inBlock` says whether a
PLL has been presented since the last PLLEND. Breaking a duty gives a defined result. DESIGN CHOICE
(log entry 18): a PLLEND with no PLL since the last one, an empty sample block, counts as a breach. -/
def keepsBlockDuty : Bool → List Instr → Bool
  | inBlock, [] => !inBlock
  | _, .pll :: rest => keepsBlockDuty true rest
  | inBlock, .pllend :: rest => inBlock && keepsBlockDuty false rest
  | inBlock, .reset :: rest => !inBlock && keepsBlockDuty inBlock rest
  | inBlock, .sqr :: rest => keepsBlockDuty inBlock rest
  | inBlock, .sync :: rest => keepsBlockDuty inBlock rest
  | inBlock, .bit _ :: rest => keepsBlockDuty inBlock rest
  | inBlock, .check _ _ :: rest => keepsBlockDuty inBlock rest

/-- The state a step leaves, its stop recorded if it stopped (40_command_model.md R102). -/
def afterStep (s : State) : State := recordOutcome s (step s)

/-- BIT commands executed one after another, a data bit each. -/
def feedBits : List Bool → State → StepOutcome
  | [], s => .next s
  | b :: rest, s =>
    match exec (.bit b) s with
    | .next t => feedBits rest t
    | .fault f => .fault f
    | .refused x => .refused x

/-- The configuration is admissible (60_exceptions.md R245). -/
def Admissible (c : Config) : Prop := badParam c = none

/-- The numeric invariant, for the reference domain: every `Num` field is finite, and the frequency
lies between `LO` and `HI` (10_state.md R38 items 1 and 6). -/
structure NumericInv (s : State) : Prop where
  domain : s.cfg.domain = .binary64
  admissible : Admissible s.cfg
  phase : Binary64.ops.isFinite s.nco.phase = true
  freq : Binary64.ops.isFinite s.nco.freq = true
  lastSync : Binary64.ops.isFinite s.bs.lastSync = true
  lastSlope : Binary64.ops.isFinite s.bs.lastSlope = true
  lastData : Binary64.ops.isFinite s.bs.lastData = true
  above : Binary64.ops.le (loOf s.cfg) s.nco.freq = true
  below : Binary64.ops.le s.nco.freq (hiOf s.cfg) = true

/-- The offset selector the stored block B asks for (43_block_sync.md R175). -/
def goffOf (g : Group) : GroupOffset := if groupType g.b then .four else .zero

/-- The invariant of the block/group state machine, for every domain: the error counter stays within
one of the limit, and within it while a group is tracked (10_state.md R38 item 5); block A is never
the target in BLOCKSYNC and GROUPRESYNC (43_block_sync.md R181, R195); the offset selector is the
one block B asked for from its storing on (R175, R181). -/
structure DecoderInv (s : State) : Prop where
  limit : s.cfg.blockErrorLimit ≤ 254
  errcnt : s.dec.errcnt.toNat ≤ s.cfg.blockErrorLimit + 1
  tracking : s.dec.state = .groupdecode ∨ s.dec.state = .groupresync → s.dec.errcnt.toNat ≤ s.cfg.blockErrorLimit
  notBlockA : s.dec.state = .blocksync ∨ s.dec.state = .groupresync → s.dec.block ≠ 0
  goffStart : s.dec.state = .blocksync → s.dec.block = 1 → s.dec.goff = .zero
  goffAcquiring : s.dec.state = .blocksync → s.dec.block ≠ 1 → s.dec.goff = goffOf s.data
  goffTracking : s.dec.state = .groupdecode ∨ s.dec.state = .groupresync → s.dec.goff = goffOf s.data

/-- The hardware's fields agree: everything 10_state.md R20 lists but the model's bookkeeping. -/
def SameHardware (s t : State) : Prop :=
  s.nco = t.nco ∧ s.bs = t.bs ∧ s.win = t.win ∧ s.dec = t.dec ∧ s.data = t.data

/-- The fields the block/group state machine reads or writes agree (43_block_sync.md R171), and the
configuration too. -/
def SameDecoder (s t : State) : Prop :=
  s.win = t.win ∧ s.dec = t.dec ∧ s.data = t.data ∧ s.cfg = t.cfg

end Sys2Proof.Machine
end

