-- ==== Sys2Proof/Certificates/Slice0/Obligations.lean ====
section
/-! DEFINITION. The statements for the provers, in the spec's order: encoding, the step, reset, the
carrier tracker, the bit-sync detector, the block/group state machine, the syndrome checker, and
the invariants of the whole machine. -/

open Sys2Proof Sys2Proof.Machine

/-! ### Encoding -/

/-- The rows V-ENC-1 to V-ENC-20 of 95_test_vectors.md section 3. -/
def Obligations.TabledWordsDecodeAsListed : Prop :=
  decode 0x0000#16 = .reservedOpcode ∧ decode 0x0001#16 = .command .reset ∧
  decode 0x0011#16 = .reservedBits ∧ decode 0x0002#16 = .command .pll ∧
  decode 0x0003#16 = .command .pllend ∧ decode 0x0004#16 = .command .sqr ∧
  decode 0x0005#16 = .command .sync ∧ decode 0x0006#16 = .command (.bit false) ∧
  decode 0x0016#16 = .command (.bit true) ∧ decode 0x0026#16 = .reservedBits ∧
  decode 0x8006#16 = .reservedBits ∧ decode 0x0007#16 = .command (.check 0 false) ∧
  decode 0x0087#16 = .command (.check 0 true) ∧ decode 0x00E7#16 = .command (.check 6 true) ∧
  decode 0x0077#16 = .command (.check 7 false) ∧ decode 0x0107#16 = .reservedBits ∧
  decode 0x0008#16 = .reservedOpcode ∧ decode 0xFFFF#16 = .reservedOpcode ∧
  decode 0xFFF1#16 = .reservedBits ∧ decode 0x000F#16 = .reservedOpcode

/-- Decoding what the encoder writes gives the command back, for every command and operand. -/
def Obligations.DecodeEncodeRoundTrip : Prop :=
  ∀ i : Instr, i.wf = true → decode (encode i) = .command i

/-- A word that decodes to a command is that command's only word: no bit of it is ignored
(30_encoding.md R88: 23 legal words). -/
def Obligations.LegalWordIsItsEncoding : Prop :=
  ∀ (cw : CommandWord) (i : Instr), decode cw = .command i → cw = encode i

/-- 30_encoding.md R88: exactly 23 of the 65536 command words are legal. -/
def Obligations.ExactlyTwentyThreeLegalWords : Prop :=
  ∃ l : List CommandWord, l.length = 23 ∧ l.Nodup ∧
    ∀ cw : CommandWord, cw ∈ l ↔ ∃ i : Instr, decode cw = .command i

/-! ### The step -/

/-- When nothing has stopped and the presented word decodes, the step is exec of that command at the
state with the command at the port and the rest of the program still to come; with nothing
presented, nothing changes (the last clause is the model's choice, log entry 4). -/
def Obligations.StepExecutesPresentedCommand : Prop :=
  (∀ (s : State) (c : Command) (rest : List Command) (i : Instr),
    s.fault = none → s.refused = none → s.program = c :: rest → decode c.cw = .command i →
      step s = exec i { s with port := c, program := rest }) ∧
  (∀ s : State, s.fault = none → s.refused = none → s.program = [] → step s = .next s)

/-- 30_encoding.md R86: opcodes 0x0 and 0x8 to 0xF are refused, and nothing but the refusal is
recorded. -/
def Obligations.ReservedOpcodeIsRefused : Prop :=
  ∀ (s : State) (c : Command) (rest : List Command),
    s.fault = none → s.refused = none → s.program = c :: rest →
    (c.cw.toNat % 16 = 0 ∨ 8 ≤ c.cw.toNat % 16) →
      step s = .refused (.reservedOpcode c.cw) ∧
        afterStep s = { s with refused := some (.reservedOpcode c.cw) }

/-- 30_encoding.md R87: a defined opcode with a reserved bit set (bits 15..4 for format N, 15..5 for
B, 15..8 for K) is refused, and nothing but the refusal is recorded. -/
def Obligations.ReservedBitsAreRefused : Prop :=
  ∀ (s : State) (c : Command) (rest : List Command),
    s.fault = none → s.refused = none → s.program = c :: rest →
    ((1 ≤ c.cw.toNat % 16 ∧ c.cw.toNat % 16 ≤ 5 ∧ 16 ≤ c.cw.toNat) ∨
      (c.cw.toNat % 16 = 6 ∧ 32 ≤ c.cw.toNat) ∨ (c.cw.toNat % 16 = 7 ∧ 256 ≤ c.cw.toNat)) →
      step s = .refused (.reservedBits c.cw) ∧
        afterStep s = { s with refused := some (.reservedBits c.cw) }

/-- 60_exceptions.md R241, R242: a stop is recorded with every other field unchanged, and whatever is
presented afterwards, RESET included, nothing changes any more. That a further step answers the same
stop is the model's choice (log entry 6). -/
def Obligations.StopIsRecordedAndSticky : Prop :=
  ∀ s : State,
    (∀ f, s.fault = none → s.refused = none → step s = .fault f →
      afterStep s = { s with fault := some f } ∧
      ∀ p : List Command, step { s with fault := some f, program := p } = .fault f ∧
        afterStep { s with fault := some f, program := p } = { s with fault := some f, program := p }) ∧
    (∀ x, s.fault = none → s.refused = none → step s = .refused x →
      afterStep s = { s with refused := some x } ∧
      ∀ p : List Command, step { s with refused := some x, program := p } = .refused x ∧
        afterStep { s with refused := some x, program := p } = { s with refused := some x, program := p })

/-- 10_state.md R27, R35: no step writes the configuration, and no completed step records a stop. -/
def Obligations.StepNeverWritesConfiguration : Prop :=
  ∀ s t : State, step s = .next t → t.cfg = s.cfg ∧ t.fault = s.fault ∧ t.refused = s.refused

/-- 60_exceptions.md R243: only PLL, SQR and SYNC fault, each under its own name; no command refuses. -/
def Obligations.OnlyNumericCommandsFault : Prop :=
  ∀ (i : Instr) (s : State),
    (∀ f, exec i s = .fault f →
      (i = .pll ∧ (f = .nonfiniteOperand .pll ∨ f = .nonfiniteResult .pll)) ∨
      (i = .sqr ∧ (f = .nonfiniteOperand .sqr ∨ f = .nonfiniteResult .sqr)) ∨
      (i = .sync ∧ (f = .nonfiniteOperand .sync ∨ f = .nonfiniteResult .sync))) ∧
    ∀ x, exec i s ≠ .refused x

/-! ### Reset and construction -/

/-- 40_command_model.md R105: RESET writes the reset values, answers nothing, and clears neither a
recorded stop nor the configuration; two in a row leave the same state as one. -/
def Obligations.ResetReinitializesTheCore : Prop :=
  ∀ s : State,
    ∃ t : State, exec .reset s = .next t ∧ exec .reset t = .next t ∧
      t = { s with
        nco := { phase := (numOpsOf s.cfg.domain).zero, freq := s.cfg.freqCenter }
        bs := { lastSync := (numOpsOf s.cfg.domain).zero, lastSlope := (numOpsOf s.cfg.domain).zero,
                lastData := (numOpsOf s.cfg.domain).zero, lastBit := false }
        win := 0#26
        dec := { state := .bitsync, bitcnt := 0, block := 0, goff := .zero, errcnt := 0#8 }
        data := { a := 0#16, b := 0#16, c := 0#16, d := 0#16 }
        resp := { y := none, bit := none, syn := none, group := none } }

/-- 70_reset_and_hazards.md R270: construction puts the core in exactly the state RESET writes, with
no fault recorded, and a refusal recorded exactly for a refused configuration; RESET as the first
command changes nothing. (`program`, `port` and `resp` at construction are the model's, log entry 7.) -/
def Obligations.ConstructionIsTheResetState : Prop :=
  ∀ c : Config,
    exec .reset (State.construct c) = .next (State.construct c) ∧
    (State.construct c).fault = none ∧
    (State.construct c).refused = (badParam c).map Refusal.badConfig ∧
    (State.construct c).nco = ⟨(numOpsOf c.domain).zero, c.freqCenter⟩ ∧
    (State.construct c).dec.state = .bitsync ∧ (State.construct c).win = 0#26

/-- 60_exceptions.md R242, R244, R245: what refuses a configuration; that construction records the
name of the first item of R245's list that holds; and that under a refused configuration no command
is ever stepped. Where two parameters of one item fail, the order of their names is the model's
choice (log entry 16), and so is the form of the step's answer (log entry 6). -/
def Obligations.RefusedConfigurationStepsNothing : Prop :=
  ∀ c : Config,
    let N := numOpsOf c.domain
    ((∃ p, badParam c = some p) ↔
      (N.isFinite c.alpha = false ∨ N.isFinite c.beta = false ∨
        N.isFinite c.freqCenter = false ∨ N.isFinite c.freqRange = false ∨
        N.lt c.freqRange N.zero = true ∨
        N.isFinite (N.sub c.freqCenter c.freqRange) = false ∨
        N.isFinite (N.add c.freqCenter c.freqRange) = false ∨
        254 < c.blockErrorLimit)) ∧
    (State.construct c).refused =
      (if N.isFinite c.alpha = false then some (.badConfig .alpha)
      else if N.isFinite c.beta = false then some (.badConfig .beta)
      else if N.isFinite c.freqCenter = false then some (.badConfig .freqCenter)
      else if N.isFinite c.freqRange = false then some (.badConfig .freqRange)
      else if N.lt c.freqRange N.zero = true then some (.badConfig .freqRange)
      else if N.isFinite (N.sub c.freqCenter c.freqRange) = false then some (.badConfig .lo)
      else if N.isFinite (N.add c.freqCenter c.freqRange) = false then some (.badConfig .hi)
      else if 254 < c.blockErrorLimit then some (.badConfig .blockErrorLimit)
      else none) ∧
    ∀ p, badParam c = some p → ∀ prog : List Command,
      step { State.construct c with program := prog } = .refused (.badConfig p)

/-! ### The carrier tracker -/

/-- 41_carrier_tracker.md R121 to R126: with finite operands and every computed value finite, PLL
completes, answers the de-rotated imaginary part, moves the NCO by the six steps and touches
nothing else. -/
def Obligations.PllTracksOneSample : Prop :=
  ∀ s : State,
    let N := numOpsOf s.cfg.domain
    let re := s.port.op0
    let im := s.port.op1
    let sn := (sincosOf s.cfg s.nco.phase).1
    let cs := (sincosOf s.cfg s.nco.phase).2
    let dre := N.sub (N.mul cs re) (N.mul sn im)
    let dim := N.add (N.mul cs im) (N.mul sn re)
    let err := N.neg (fastAtan2 N dim dre)
    let lo := N.sub s.cfg.freqCenter s.cfg.freqRange
    let hi := N.add s.cfg.freqCenter s.cfg.freqRange
    let f1 := N.add s.nco.freq (N.mul s.cfg.beta err)
    let f2 := if N.lt hi f1 = true then hi else if N.lt f1 lo = true then lo else f1
    let p1 := N.add s.nco.phase (N.add f2 (N.mul s.cfg.alpha err))
    N.isFinite re = true → N.isFinite im = true →
    (∀ v ∈ [sn, cs, dre, dim, err, f1, f2, p1], N.isFinite v = true) →
      exec .pll s = .next { s with
        nco := { phase := p1, freq := f2 }
        resp := { y := some dim, bit := none, syn := none, group := none } }

/-- 60_exceptions.md R243, R246: PLL faults on an operand that is not finite, and otherwise on any one
of its eight computed values that is not finite. -/
def Obligations.PllFaultsOnNonfinite : Prop :=
  ∀ s : State,
    let N := numOpsOf s.cfg.domain
    let re := s.port.op0
    let im := s.port.op1
    let sn := (sincosOf s.cfg s.nco.phase).1
    let cs := (sincosOf s.cfg s.nco.phase).2
    let dre := N.sub (N.mul cs re) (N.mul sn im)
    let dim := N.add (N.mul cs im) (N.mul sn re)
    let err := N.neg (fastAtan2 N dim dre)
    let lo := N.sub s.cfg.freqCenter s.cfg.freqRange
    let hi := N.add s.cfg.freqCenter s.cfg.freqRange
    let f1 := N.add s.nco.freq (N.mul s.cfg.beta err)
    let f2 := if N.lt hi f1 = true then hi else if N.lt f1 lo = true then lo else f1
    let p1 := N.add s.nco.phase (N.add f2 (N.mul s.cfg.alpha err))
    (N.isFinite re = false ∨ N.isFinite im = false → exec .pll s = .fault (.nonfiniteOperand .pll)) ∧
    (N.isFinite re = true → N.isFinite im = true →
      (N.isFinite sn = false ∨ N.isFinite cs = false ∨ N.isFinite dre = false ∨ N.isFinite dim = false ∨
        N.isFinite err = false ∨ N.isFinite f1 = false ∨ N.isFinite f2 = false ∨ N.isFinite p1 = false) →
      exec .pll s = .fault (.nonfiniteResult .pll))

/-- 41_carrier_tracker.md R134, for the reference domain and every admissible configuration: the
frequency lies in [LO, HI] after every PLL, and the phase in [0, TWO_PI) after every PLLEND that
finds a finite phase. -/
def Obligations.TrackerStaysInBounds : Prop :=
  ∀ s t : State, s.cfg.domain = .binary64 → Admissible s.cfg →
    (exec .pll s = .next t →
      Binary64.ops.le (loOf s.cfg) t.nco.freq = true ∧ Binary64.ops.le t.nco.freq (hiOf s.cfg) = true) ∧
    (Binary64.ops.isFinite s.nco.phase = true → exec .pllend s = .next t →
      Binary64.ops.le (.bits 0#64) t.nco.phase = true ∧ Binary64.ops.lt t.nco.phase Binary64.ops.twoPi = true)

/-- 10_state.md R22: under every admissible configuration of the reference domain, `FREQ_CENTER` lies
between the rounded endpoints `LO` and `HI`. -/
def Obligations.FrequencyCenterLiesInRange : Prop :=
  ∀ c : Config, c.domain = .binary64 → Admissible c →
    Binary64.ops.le (loOf c) c.freqCenter = true ∧ Binary64.ops.le c.freqCenter (hiOf c) = true

/-- 41_carrier_tracker.md R123, for the reference domain: a finite result of the fast arctangent of
finite arguments lies in [neg(PI), PI]. -/
def Obligations.FastAtan2StaysWithinPi : Prop :=
  ∀ y x : NumVal, Binary64.ops.isFinite y = true → Binary64.ops.isFinite x = true →
    Binary64.ops.isFinite (fastAtan2 Binary64.ops y x) = true →
      Binary64.ops.le (Binary64.ops.neg Binary64.ops.pi) (fastAtan2 Binary64.ops y x) = true ∧
        Binary64.ops.le (fastAtan2 Binary64.ops y x) Binary64.ops.pi = true

/-- 41_carrier_tracker.md R128, R129, for the reference domain: on the vertical axis the result is
`PI_2`, `neg(PI_2)` or `num(0)` by the sign of `y`, zeros of either sign counting as 0; on the
negative real axis (`y` a zero of either sign) it is `PI`. -/
def Obligations.FastAtan2OnTheAxes : Prop :=
  ∀ y x : NumVal, Binary64.ops.isFinite y = true → Binary64.ops.isFinite x = true →
    (Binary64.ops.eq x (.bits 0#64) = true →
      fastAtan2 Binary64.ops y x =
        if Binary64.ops.lt (.bits 0#64) y = true then Binary64.ops.piHalf
        else if Binary64.ops.eq y (.bits 0#64) = true then .bits 0#64 else Binary64.ops.neg Binary64.ops.piHalf) ∧
    (Binary64.ops.lt x (.bits 0#64) = true → Binary64.ops.eq y (.bits 0#64) = true → fastAtan2 Binary64.ops y x = Binary64.ops.pi)

/-- 41_carrier_tracker.md R132, R133: PLLEND always completes, wraps the phase by the floored modulo of
R133, a result equal to the phase leaving the phase itself (R132: "returned unchanged"; log entry 9),
and changes nothing else. -/
def Obligations.PllendWrapsThePhase : Prop :=
  ∀ s : State,
    let N := numOpsOf s.cfg.domain
    let q := N.floor (N.div s.nco.phase N.twoPi)
    let r := N.sub s.nco.phase (N.mul N.twoPi q)
    exec .pllend s = .next { s with
      nco := { 
        phase := if N.lt r N.zero = true ∨ N.le N.twoPi r = true then N.zero
          else if N.eq r s.nco.phase = true then s.nco.phase else r
        freq := s.nco.freq }
      resp := { y := none, bit := none, syn := none, group := none } }

/-- 41_carrier_tracker.md R132, R133, for the reference domain: a phase already in [0, TWO_PI) is
returned unchanged. For the phase -0 this is the model's reading (log entry 9, DEDUCED): R132 and the
result of V-WR-2 say it, and the arithmetic of V-WR-2's note, taken by IEEE 754, would give +0. -/
def Obligations.WrapKeepsAPhaseInTheTurn : Prop :=
  ∀ p : NumVal, Binary64.ops.le (.bits 0#64) p = true → Binary64.ops.lt p Binary64.ops.twoPi = true →
    wrap Binary64.ops p = p

/-- The frame of PLL and PLLEND: a completed one leaves every field but the NCO and the response, and
PLLEND leaves the frequency too; neither emits a bit, a syndrome or a group. -/
def Obligations.TrackerCommandsFrame : Prop :=
  ∀ (s t : State) (i : Instr), (i = .pll ∨ i = .pllend) → exec i s = .next t →
    t.bs = s.bs ∧ t.win = s.win ∧ t.dec = s.dec ∧ t.data = s.data ∧ t.fault = s.fault ∧
      t.refused = s.refused ∧ t.cfg = s.cfg ∧ t.program = s.program ∧ t.port = s.port ∧
      t.resp.bit = none ∧ t.resp.syn = none ∧ t.resp.group = none ∧
      (i = .pllend → t.nco.freq = s.nco.freq ∧ t.resp.y = none)

/-! ### The bit-sync detector and the differential demodulator -/

/-- 42_bitsync_demod.md R150: SQR of a finite operand with a finite square completes, answers the
square and changes nothing but the response. -/
def Obligations.SqrAnswersTheSquare : Prop :=
  ∀ s : State,
    let q := (numOpsOf s.cfg.domain).mul s.port.op0 s.port.op0
    (numOpsOf s.cfg.domain).isFinite s.port.op0 = true → (numOpsOf s.cfg.domain).isFinite q = true →
      exec .sqr s = .next { s with resp := { y := some q, bit := none, syn := none, group := none } }

/-- 60_exceptions.md R243: when SQR and SYNC fault, and with which code. -/
def Obligations.SqrAndSyncFaultOnNonfinite : Prop :=
  ∀ s : State,
    let N := numOpsOf s.cfg.domain
    let slope := N.sub s.port.op1 s.bs.lastSync
    (N.isFinite s.port.op0 = false → exec .sqr s = .fault (.nonfiniteOperand .sqr)) ∧
    (N.isFinite s.port.op0 = true → N.isFinite (N.mul s.port.op0 s.port.op0) = false →
      exec .sqr s = .fault (.nonfiniteResult .sqr)) ∧
    (N.isFinite s.port.op0 = false ∨ N.isFinite s.port.op1 = false →
      exec .sync s = .fault (.nonfiniteOperand .sync)) ∧
    (N.isFinite s.port.op0 = true → N.isFinite s.port.op1 = true →
      (N.isFinite slope = false ∨ N.isFinite (N.mul s.bs.lastSlope slope) = false) →
      exec .sync s = .fault (.nonfiniteResult .sync))

/-- 42_bitsync_demod.md R150, for the reference domain: the answered square of a finite operand is
never negative, and the square of a zero of either sign is +0. -/
def Obligations.SquareIsNeverNegative : Prop :=
  ∀ (s t : State) (y : NumVal), s.cfg.domain = .binary64 → exec .sqr s = .next t → t.resp.y = some y →
    Binary64.ops.le (.bits 0#64) y = true ∧ (Binary64.ops.eq s.port.op0 (.bits 0#64) = true → y = .bits 0#64)

/-- 42_bitsync_demod.md R152, R153, R157: a SYNC without a peak emits nothing and updates the
history. -/
def Obligations.SyncWithoutPeakUpdatesHistory : Prop :=
  ∀ s : State,
    let N := numOpsOf s.cfg.domain
    let slope := N.sub s.port.op1 s.bs.lastSync
    let prod := N.mul s.bs.lastSlope slope
    N.isFinite s.port.op0 = true → N.isFinite s.port.op1 = true → N.isFinite slope = true →
    N.isFinite prod = true → (N.lt slope N.zero = false ∨ N.lt prod N.zero = false) →
      exec .sync s = .next { s with
        bs := { lastSync := s.port.op1, lastSlope := slope, lastData := s.port.op0, lastBit := s.bs.lastBit }
        resp := { y := none, bit := none, syn := none, group := none } }

/-- 42_bitsync_demod.md R152 to R157: a SYNC at a peak takes the raw bit from the previous sample,
XORs it with the previous raw bit, hands the data bit to the state machine exactly as BIT would
(which completes), emits it, and updates the history. -/
def Obligations.SyncAtPeakForwardsDataBit : Prop :=
  ∀ s : State,
    let N := numOpsOf s.cfg.domain
    let slope := N.sub s.port.op1 s.bs.lastSync
    let prod := N.mul s.bs.lastSlope slope
    let raw := N.le N.zero s.bs.lastData
    let d := raw ^^ s.bs.lastBit
    N.isFinite s.port.op0 = true → N.isFinite s.port.op1 = true → N.isFinite slope = true →
    N.isFinite prod = true → N.lt slope N.zero = true → N.lt prod N.zero = true →
      ∃ u : State, exec (.bit d) s = .next u ∧
        exec .sync s = .next { u with
          bs := { lastSync := s.port.op1, lastSlope := slope, lastData := s.port.op0, lastBit := raw }
          resp := { y := none, bit := some d, syn := none, group := u.resp.group } }

/-- 42_bitsync_demod.md R157: every SYNC that does not fault updates the history to its operands and
its slope, whether it detected a peak or not. -/
def Obligations.SyncUpdatesHistory : Prop :=
  ∀ s t : State, exec .sync s = .next t →
    t.bs.lastSync = s.port.op1 ∧ t.bs.lastSlope = (numOpsOf s.cfg.domain).sub s.port.op1 s.bs.lastSync ∧
      t.bs.lastData = s.port.op0

/-- 42_bitsync_demod.md R158, for the reference domain: two consecutive SYNCs never both detect a
peak. -/
def Obligations.NoPeaksOnConsecutiveSyncs : Prop :=
  ∀ (s t u : State) (c : Command), s.cfg.domain = .binary64 →
    exec .sync s = .next t → t.resp.bit ≠ none → exec .sync { t with port := c } = .next u →
      u.resp.bit = none

/-- 10_state.md R24 and 42_bitsync_demod.md R153, for the reference domain: a zero slope, last or
present, never detects; so the first SYNC of a constructed core emits nothing. -/
def Obligations.ZeroSlopeNeverDetects : Prop :=
  (∀ s t : State, s.cfg.domain = .binary64 → exec .sync s = .next t →
    (Binary64.ops.eq s.bs.lastSlope (.bits 0#64) = true ∨ Binary64.ops.eq t.bs.lastSlope (.bits 0#64) = true) →
      t.resp.bit = none ∧ t.win = s.win ∧ t.dec = s.dec) ∧
  (∀ (c : Config) (k : Command) (t : State), c.domain = .binary64 →
    exec .sync { State.construct c with port := k } = .next t → t.resp.bit = none)

/-- 42_bitsync_demod.md R155: a sign flip of the whole raw stream changes no data bit. Two states that
differ in the sign of the last sample and in the last raw bit, given samples of opposite sign
decision, emit the same response, drive the state machine alike, and again differ only so. -/
def Obligations.DataBitsIgnoreCarrierSign : Prop :=
  ∀ (s t : State) (flippedData flippedMf : NumVal),
    let N := numOpsOf s.cfg.domain
    N.le N.zero flippedData = !N.le N.zero s.bs.lastData →
    N.le N.zero flippedMf = !N.le N.zero s.port.op0 → N.isFinite flippedMf = true →
    exec .sync s = .next t →
      exec .sync { s with
          bs := { s.bs with lastData := flippedData, lastBit := !s.bs.lastBit }
          port := { s.port with op0 := flippedMf } } =
        .next { t with
          bs := { t.bs with lastData := flippedMf, lastBit := !t.bs.lastBit }
          port := { t.port with op0 := flippedMf } }

/-- The frame of SQR and SYNC: SQR leaves every field but the response; SYNC leaves the NCO, the
bookkeeping and the port, and, when it emits no bit, the window, the decode state, the block data
and `lastBit` too. -/
def Obligations.BitSyncCommandsFrame : Prop :=
  ∀ s t : State,
    (exec .sqr s = .next t → t = { s with resp := t.resp } ∧ t.resp.bit = none ∧ t.resp.syn = none ∧
      t.resp.group = none) ∧
    (exec .sync s = .next t →
      t.nco = s.nco ∧ t.fault = s.fault ∧ t.refused = s.refused ∧ t.cfg = s.cfg ∧
      t.program = s.program ∧ t.port = s.port ∧ t.resp.y = none ∧ t.resp.syn = none ∧
      (t.resp.bit = none → t.win = s.win ∧ t.dec = s.dec ∧ t.data = s.data ∧
        t.bs.lastBit = s.bs.lastBit ∧ t.resp.group = none))

/-! ### The sliding window and the block/group state machine -/

/-- 43_block_sync.md R180, R181: BIT in BITSYNC completes; a clean window acquires, any other only
shifts. -/
def Obligations.BitsyncScansEveryBit : Prop :=
  ∀ (s : State) (b : Bool),
    let w : Window := (s.win <<< 1) ||| (if b = true then 1#26 else 0#26)
    let quiet : Response := { y := none, bit := none, syn := none, group := none }
    s.dec.state = .bitsync →
      (syn w ≠ 0x3D8#10 → exec (.bit b) s = .next { s with win := w, resp := quiet }) ∧
      (syn w = 0x3D8#10 → exec (.bit b) s = .next { s with
        win := w
        data := { s.data with a := w.extractLsb' 10 16 }
        dec := { state := .blocksync, bitcnt := 0, block := 1, goff := .zero, errcnt := s.dec.errcnt }
        resp := quiet })

/-- 43_block_sync.md R183: outside BITSYNC, BIT completes on a bit that is no block boundary, and
shifts the window and counts the bit, nothing else. -/
def Obligations.BitWithinABlockOnlyCounts : Prop :=
  ∀ (s : State) (b : Bool), s.dec.state ≠ .bitsync → s.dec.bitcnt.val < 25 →
    ∃ n : Fin 26, n.val = s.dec.bitcnt.val + 1 ∧
      exec (.bit b) s = .next { s with
        win := (s.win <<< 1) ||| (if b = true then 1#26 else 0#26)
        dec := { s.dec with bitcnt := n }
        resp := { y := none, bit := none, syn := none, group := none } }

/-- 43_block_sync.md R184 to R187, R197: BIT at a BLOCKSYNC boundary completes. A bad block demotes;
a good block is stored and the target advances, block B choosing the offset selector by payload bit
11; a good block D dispatches the group and enters GROUPDECODE with the error counter at 0. -/
def Obligations.BlocksyncBoundary : Prop :=
  ∀ (s : State) (b : Bool),
    let w : Window := (s.win <<< 1) ||| (if b = true then 1#26 else 0#26)
    let off := offsetSyndrome (Fin.ofNat 8 (s.dec.block.val + (if s.dec.goff = .four then 4 else 0)))
    let p : Payload := w.extractLsb' 10 16
    let quiet : Response := { y := none, bit := none, syn := none, group := none }
    s.dec.state = .blocksync → s.dec.bitcnt = 25 →
      (syn w ≠ off → exec (.bit b) s = .next { s with
        win := if s.cfg.demoteClearsWindow = true then 0#26 else w
        dec := { s.dec with state := .bitsync, bitcnt := 0 }
        resp := quiet }) ∧
      (syn w = off → s.dec.block = 0 → exec (.bit b) s = .next { s with
        win := w, data := { s.data with a := p }, dec := { s.dec with bitcnt := 0, block := 1 }, resp := quiet }) ∧
      (syn w = off → s.dec.block = 1 → exec (.bit b) s = .next { s with
        win := w, data := { s.data with b := p }
        dec := { s.dec with bitcnt := 0, block := 2, goff := if p.getLsbD 11 = true then .four else .zero }
        resp := quiet }) ∧
      (syn w = off → s.dec.block = 2 → exec (.bit b) s = .next { s with
        win := w, data := { s.data with c := p }, dec := { s.dec with bitcnt := 0, block := 3 }, resp := quiet }) ∧
      (syn w = off → s.dec.block = 3 → exec (.bit b) s = .next { s with
        win := w, data := { s.data with d := p }
        dec := { s.dec with state := .groupdecode, bitcnt := 0, block := 0, errcnt := 0#8 }
        resp := { quiet with group := some { s.data with d := p } } })

/-- 43_block_sync.md R189, R193, R194: BIT at a GROUPDECODE boundary whose block checks clean after
correction completes: the corrected window replaces the window, the payload is stored, the target
advances, and block D dispatches the group and resets the error counter. -/
def Obligations.GroupdecodeGoodBlock : Prop :=
  ∀ (s : State) (b : Bool),
    let r := checkBlock ((s.win <<< 1) ||| (if b = true then 1#26 else 0#26))
      (offsetSyndrome (Fin.ofNat 8 (s.dec.block.val + (if s.dec.goff = .four then 4 else 0)))) true
    let p : Payload := r.2.extractLsb' 10 16
    let quiet : Response := { y := none, bit := none, syn := none, group := none }
    s.dec.state = .groupdecode → s.dec.bitcnt = 25 → r.1 = 0#10 →
      (s.dec.block = 0 → exec (.bit b) s = .next { s with
        win := r.2, data := { s.data with a := p }, dec := { s.dec with bitcnt := 0, block := 1 }, resp := quiet }) ∧
      (s.dec.block = 1 → exec (.bit b) s = .next { s with
        win := r.2, data := { s.data with b := p }
        dec := { s.dec with bitcnt := 0, block := 2, goff := if p.getLsbD 11 = true then .four else .zero }
        resp := quiet }) ∧
      (s.dec.block = 2 → exec (.bit b) s = .next { s with
        win := r.2, data := { s.data with c := p }, dec := { s.dec with bitcnt := 0, block := 3 }, resp := quiet }) ∧
      (s.dec.block = 3 → exec (.bit b) s = .next { s with
        win := r.2, data := { s.data with d := p }
        dec := { s.dec with bitcnt := 0, block := 0, errcnt := 0#8 }
        resp := { quiet with group := some { s.data with d := p } } })

/-- 43_block_sync.md R190 to R192, R197: BIT at a GROUPDECODE boundary whose block stays bad after
correction completes: the error counter goes up; past the limit the machine demotes; otherwise the
target advances, to GROUPRESYNC unless the next target is block A. The flips of the failed
correction stay in the window unless a demotion clears it. The counter is 8 bits, so at 255, which no
run reaches, it goes to 0: the model's choice (log entry 13). -/
def Obligations.GroupdecodeBadBlock : Prop :=
  ∀ (s : State) (b : Bool),
    let r := checkBlock ((s.win <<< 1) ||| (if b = true then 1#26 else 0#26))
      (offsetSyndrome (Fin.ofNat 8 (s.dec.block.val + (if s.dec.goff = .four then 4 else 0)))) true
    let n : BitVec 8 := s.dec.errcnt + 1#8
    let quiet : Response := { y := none, bit := none, syn := none, group := none }
    s.dec.state = .groupdecode → s.dec.bitcnt = 25 → r.1 ≠ 0#10 →
      (s.cfg.blockErrorLimit < n.toNat → exec (.bit b) s = .next { s with
        win := if s.cfg.demoteClearsWindow = true then 0#26 else r.2
        dec := { s.dec with state := .bitsync, bitcnt := 0, errcnt := n }, resp := quiet }) ∧
      (n.toNat ≤ s.cfg.blockErrorLimit → s.dec.block ≠ 3 → exec (.bit b) s = .next { s with
        win := r.2
        dec := { s.dec with state := .groupresync, bitcnt := 0, block := s.dec.block + 1, errcnt := n }
        resp := quiet }) ∧
      (n.toNat ≤ s.cfg.blockErrorLimit → s.dec.block = 3 → exec (.bit b) s = .next { s with
        win := r.2, dec := { s.dec with bitcnt := 0, block := 0, errcnt := n }, resp := quiet })

/-- 43_block_sync.md R195: BIT at a GROUPRESYNC boundary completes: the target advances unchecked, and
the wrap to block A resumes GROUPDECODE. -/
def Obligations.GroupresyncBoundary : Prop :=
  ∀ (s : State) (b : Bool),
    let w : Window := (s.win <<< 1) ||| (if b = true then 1#26 else 0#26)
    let quiet : Response := { y := none, bit := none, syn := none, group := none }
    s.dec.state = .groupresync → s.dec.bitcnt = 25 →
      (s.dec.block ≠ 3 → exec (.bit b) s = .next { s with
        win := w, dec := { s.dec with bitcnt := 0, block := s.dec.block + 1 }, resp := quiet }) ∧
      (s.dec.block = 3 → exec (.bit b) s = .next { s with
        win := w, dec := { s.dec with state := .groupdecode, bitcnt := 0, block := 0 }, resp := quiet })

/-- The frame of BIT and CHECK: both leave the NCO, the bit-sync state, the bookkeeping and the port
(43_block_sync.md R170, R171); CHECK leaves the decode state and the block data too, and without
correction the window (44_syndrome_fec.md R210). -/
def Obligations.DecoderCommandsFrame : Prop :=
  ∀ s t : State,
    (∀ b : Bool, exec (.bit b) s = .next t →
      t.nco = s.nco ∧ t.bs = s.bs ∧ t.fault = s.fault ∧ t.refused = s.refused ∧ t.cfg = s.cfg ∧
      t.program = s.program ∧ t.port = s.port ∧ t.resp.y = none ∧ t.resp.bit = none ∧ t.resp.syn = none) ∧
    (∀ (o : Fin 8) (f : Bool), exec (.check o f) s = .next t →
      t = { s with win := t.win, resp := t.resp } ∧ (f = false → t.win = s.win) ∧
      t.resp.y = none ∧ t.resp.bit = none ∧ t.resp.group = none)

/-- 43_block_sync.md R171: BITSTEP never reads the NCO or the bit-sync state. BIT on two states that
agree on the window, the decode state, the block data and the configuration gives the same
response and states that agree on them again. -/
def Obligations.BitReadsOnlyDecoderState : Prop :=
  ∀ (s s' t t' : State) (b : Bool), SameDecoder s s' → exec (.bit b) s = .next t →
    exec (.bit b) s' = .next t' → SameDecoder t t' ∧ t.resp = t'.resp

/-- 43_block_sync.md R196: whatever command runs, a group is dispatched only on the last bit of a
block D that checks clean, in BLOCKSYNC without and in GROUPDECODE with correction. That bit is the
one the command brings: BIT's own, or at a SYNC the raw bit of the previous sample XOR the previous
raw bit (42_bitsync_demod.md R154, R155). The group is the block data with D's payload, the checked
window replaces the window, and GROUPDECODE goes on with the error counter at 0. -/
def Obligations.DispatchOnlyOnValidatedBlockD : Prop :=
  ∀ (i : Instr) (s t : State) (g : Group), exec i s = .next t → t.resp.group = some g →
    (s.dec.state = .blocksync ∨ s.dec.state = .groupdecode) ∧ s.dec.block = 3 ∧ s.dec.bitcnt = 25 ∧
      (∃ b : Bool,
        let N := numOpsOf s.cfg.domain
        let r := checkBlock (shiftWindow s.win b) (targetOffset s.dec) (decide (s.dec.state = .groupdecode))
        (i = .bit b ∨ (i = .sync ∧ t.resp.bit = some b ∧ b = (N.le N.zero s.bs.lastData ^^ s.bs.lastBit))) ∧
          r.1 = 0#10 ∧ g = { s.data with d := payload r.2 } ∧ t.win = r.2) ∧
      t.data = g ∧ t.dec.state = .groupdecode ∧ t.dec.block = 0 ∧ t.dec.errcnt = 0#8

/-- 43_block_sync.md R189 to R196, 44_syndrome_fec.md R213: from the start of a group in GROUPDECODE,
the 104 bits of any correctly formed group of either type end in its dispatch, word for word, with
the machine at the start of the next group. -/
def Obligations.CleanGroupIsDispatched : Prop :=
  ∀ (s : State) (a b c d : Payload),
    s.dec.state = .groupdecode → s.dec.block = 0 → s.dec.bitcnt = 0 →
      ∃ t : State, feedBits (groupBits a b c d) s = .next t ∧ t.resp.group = some ⟨a, b, c, d⟩ ∧
        t.data = ⟨a, b, c, d⟩ ∧ t.win = blockWord d .D ∧
        t.dec = ⟨.groupdecode, 0, 0, if b.getLsbD 11 = true then .four else .zero, 0#8⟩

/-- 70_reset_and_hazards.md R280: from BITSYNC, a correctly formed group that starts with the next bit
and meets no false lock before its block A is whole is acquired at bit 26 and dispatched, 78 bits
later, with the machine in GROUPDECODE. -/
def Obligations.CleanGroupIsAcquired : Prop :=
  ∀ (s : State) (a b c d : Payload), s.dec.state = .bitsync →
    (∀ n : Nat, 1 ≤ n → n ≤ 25 →
      syn (((wordBits (blockWord a .A)).take n).foldl shiftWindow s.win) ≠ offsetSyndrome 0) →
      (∃ u : State, feedBits ((groupBits a b c d).take 26) s = .next u ∧ u.dec.state = .blocksync ∧
        u.data.a = a) ∧
      ∃ t : State, feedBits (groupBits a b c d) s = .next t ∧ t.resp.group = some ⟨a, b, c, d⟩ ∧
        t.dec = ⟨.groupdecode, 0, 0, if b.getLsbD 11 = true then .four else .zero, 0#8⟩

/-! ### The syndrome calculator and the Meggitt corrector -/

/-- 10_state.md R42 with R40: each row of the check matrix is the next row times x modulo the
generator, from the 10 identity rows through the 16 parity rows. -/
def Obligations.ParityRowsFollowTheGenerator : Prop :=
  ∀ j : Fin 25, syn (1#26 <<< (25 - j.val)) =
    (((syn (1#26 <<< (24 - j.val))).setWidth 11 <<< 1) ^^^
      (if (syn (1#26 <<< (24 - j.val))).getLsbD 9 = true then 0x5B9#11 else 0#11)).setWidth 10

/-- 10_state.md R43: each offset word has the offset syndrome of its name. -/
def Obligations.OffsetWordsHaveOffsetSyndromes : Prop :=
  ∀ o : OffsetName, syn ((offsetWord o).setWidth 26) = offsetSyndrome (offsetIndex o)

/-- 44_syndrome_fec.md R220: the syndrome is linear, zero on the zero word, and on a single bit the
matching row of the check matrix (10_state.md R40). -/
def Obligations.SyndromeIsLinear : Prop :=
  (∀ v w : Window, syn (v ^^^ w) = syn v ^^^ syn w) ∧ syn 0#26 = 0#10 ∧
    (∀ j : Fin 10, syn (1#26 <<< (25 - j.val)) = 1#10 <<< (9 - j.val)) ∧
    ∀ i : Fin 16, syn (1#26 <<< (15 - i.val)) = parckh[i.val]?.getD 0#10

/-- 44_syndrome_fec.md R213 with 30_encoding.md R92: a correctly formed block of any payload and
offset carries its payload and has syndrome 0 at its own offset; no check of it changes it. -/
def Obligations.WellFormedBlockChecksClean : Prop :=
  ∀ (p : Payload) (o : OffsetName) (f : Bool),
    payload (blockWord p o) = p ∧
      checkBlock (blockWord p o) (offsetSyndrome (offsetIndex o)) f = (0#10, blockWord p o)

/-- 44_syndrome_fec.md R216: the corrector never changes window bits 9..0. -/
def Obligations.CorrectorFlipsOnlyPayloadBits : Prop :=
  ∀ (s : Syndrome) (w : Window), (meggitt s w).2.extractLsb' 0 10 = w.extractLsb' 0 10

/-- 44_syndrome_fec.md R218: what the corrector does to an error pattern `e` added to a block that
checks clean depends on `e` only: the result and the flipped bits are those for `e` itself. -/
def Obligations.CorrectionDependsOnErrorOnly : Prop :=
  ∀ (w e : Window) (off : Syndrome), syn w ^^^ off = 0#10 → syn e ≠ 0#10 →
    checkBlock (w ^^^ e) off true = ((meggitt (syn e) e).1, w ^^^ (meggitt (syn e) e).2)

/-- 44_syndrome_fec.md R218 item 1: a burst of length 1 to 5 within window bits 25..10, added to a
block that checks clean, is corrected: syndrome 0 and the error-free block. -/
def Obligations.PayloadBurstIsCorrected : Prop :=
  ∀ (w : Window) (off : Syndrome) (v k : Nat), syn w ^^^ off = 0#10 →
    0 < v → v < 2 ^ 5 → 10 ≤ k → v * 2 ^ k < 2 ^ 26 →
      checkBlock (w ^^^ BitVec.ofNat 26 (v * 2 ^ k)) off true = (0#10, w)

/-- 44_syndrome_fec.md R218 item 2: a burst of length 1 to 5 that touches window bits 9..0, added to a
block that checks clean, leaves a non-zero syndrome. -/
def Obligations.CheckBitBurstIsNotCorrected : Prop :=
  ∀ (w : Window) (off : Syndrome) (v k : Nat), syn w ^^^ off = 0#10 →
    0 < v → v < 2 ^ 5 → v * 2 ^ k % 2 ^ 10 ≠ 0 → v * 2 ^ k < 2 ^ 26 →
      (checkBlock (w ^^^ BitVec.ofNat 26 (v * 2 ^ k)) off true).1 ≠ 0#10

/-- 44_syndrome_fec.md R218 item 1: exactly 207 non-zero syndromes are corrected to 0. -/
def Obligations.CorrectableSyndromeCount : Prop :=
  ((List.range 1024).filter fun n =>
    n ≠ 0 && decide ((meggitt (BitVec.ofNat 10 n) 0#26).1 = 0#10)).length = 207

/-- 44_syndrome_fec.md R210, R211, R214: CHECK completes: it answers the syndrome of the window
against the named offset, after correction when that is enabled and the syndrome is not zero, puts
the checked window back and changes nothing else; without correction the state is unchanged. -/
def Obligations.CheckAnswersTheSyndrome : Prop :=
  ∀ (s : State) (o : Fin 8) (f : Bool),
    let s0 := syn s.win ^^^ offsetSyndrome o
    let answer := fun v : Syndrome => ({ y := none, bit := none, syn := some v, group := none } : Response)
    (f = false ∨ s0 = 0#10 → exec (.check o f) s = .next { s with resp := answer s0 }) ∧
    (f = true → s0 ≠ 0#10 → exec (.check o f) s = .next { s with
      win := (meggitt s0 s.win).2, resp := answer (meggitt s0 s.win).1 })

/-! ### Invariants -/

/-- 10_state.md R38 item 5 and the reachable shapes of 43_block_sync.md R181 to R195 hold of every
constructed core with an admissible configuration. -/
def Obligations.ConstructionMeetsDecoderInvariant : Prop :=
  ∀ c : Config, Admissible c → DecoderInv (State.construct c)

/-- 10_state.md R38 item 5 and the reachable shapes of 43_block_sync.md R181 to R195: every step keeps
them, whatever command is presented. -/
def Obligations.StepKeepsDecoderInvariant : Prop :=
  ∀ s t : State, DecoderInv s → step s = .next t → DecoderInv t

/-- 10_state.md R38 items 1 and 6 hold of every constructed core with an admissible configuration of
the reference domain. -/
def Obligations.ConstructionMeetsNumericInvariant : Prop :=
  ∀ c : Config, c.domain = .binary64 → Admissible c → NumericInv (State.construct c)

/-- 10_state.md R38 items 1 and 6, for the reference domain: every step keeps every `Num` field finite
and the frequency in [LO, HI], whatever command and operands are presented. -/
def Obligations.StepKeepsNumericInvariant : Prop :=
  ∀ s t : State, NumericInv s → step s = .next t → NumericInv t

/-! ### SINCOS -/

/-- 41_carrier_tracker.md R131: for every domain and every `SINCOS`, both components are finite where
the argument is, and the reference `SINCOS` of num(0) is exactly (num(0), num(1)). The uninterpreted
domain obeys no law (log entry 14), so the second clause asks that its num(1) is finite. -/
def Obligations.SincosIsFiniteOnFinite : Prop :=
  ∀ c : Config,
    let N := numOpsOf c.domain
    (∀ x : NumVal, N.isFinite x = true →
      N.isFinite (sincosOf c x).1 = true ∧ N.isFinite (sincosOf c x).2 = true) ∧
    (c.sincos = .reference → N.isFinite N.one = true → sincosOf c N.zero = (N.zero, N.one))
end

