-- ==== Sys2Proof/Laws/Binary64.lean ====
section
/-! SUPPORT. What the binary64 primitives rest on: a packed value read back, the one rounding
exact on the domain's own values and monotone, and the order of patterns the order of values. Then
what the domain's operations are on the whole carrier. -/

namespace Sys2Proof.Machine.Binary64

theorem signOf_pack (b : Bool) {m : Nat} (h : m < 2 ^ 63) : signOf (pack b m) = b := by
  unfold signOf pack
  rw [BitVec.getLsbD_ofNat]
  cases b
  · simp only [Bool.false_eq_true, if_false, Nat.testBit_lt_two_pow h, Bool.and_false]
  · simp only [if_true, Nat.testBit_two_pow_add_eq, Nat.testBit_lt_two_pow h]; rfl

theorem magBits_pack (b : Bool) {m : Nat} (h : m < 2 ^ 63) : magBits (pack b m) = m := by
  cases b <;> simp only [magBits, pack, BitVec.toNat_ofNat, Bool.false_eq_true, if_false, if_true] <;> omega

theorem magBits_lt (x : Pattern) : magBits x < 2 ^ 63 := Nat.mod_lt _ (by decide)

theorem roundMag_le_inf (n d : Nat) : roundMag n d ≤ infBits := Nat.min_le_right _ _

theorem roundMag_lt (n d : Nat) : roundMag n d < 2 ^ 63 :=
  Nat.lt_of_le_of_lt (roundMag_le_inf n d) (by decide)

/-- The rounded quotient of one binade: half up, ties to even. -/
theorem roundHalfEven_mono {n₁ D₁ n₂ D₂ : Nat} (h₁ : 0 < D₁) (h₂ : 0 < D₂) (h : n₁ * D₂ ≤ n₂ * D₁) :
    (if D₁ < 2 * (n₁ % D₁) ∨ (2 * (n₁ % D₁) = D₁ ∧ n₁ / D₁ % 2 = 1) then n₁ / D₁ + 1 else n₁ / D₁) ≤
      (if D₂ < 2 * (n₂ % D₂) ∨ (2 * (n₂ % D₂) = D₂ ∧ n₂ / D₂ % 2 = 1) then n₂ / D₂ + 1 else n₂ / D₂) := by
  have hm : n₁ / D₁ ≤ n₂ / D₂ := by
    rw [Nat.le_div_iff_mul_le h₂]
    have : n₁ / D₁ * D₁ ≤ n₁ := Nat.div_mul_le_self _ _
    exact Nat.le_of_mul_le_mul_right (by nlinarith) h₁
  rcases Nat.lt_or_eq_of_le hm with hlt | heq
  · split <;> split <;> omega
  · have hr : n₁ % D₁ * D₂ ≤ n₂ % D₂ * D₁ := by
      have e₁ := Nat.div_add_mod n₁ D₁
      have e₂ := Nat.div_add_mod n₂ D₂
      rw [heq] at e₁
      nlinarith
    have key : (D₁ < 2 * (n₁ % D₁) ∨ (2 * (n₁ % D₁) = D₁ ∧ n₁ / D₁ % 2 = 1)) →
        (D₂ < 2 * (n₂ % D₂) ∨ (2 * (n₂ % D₂) = D₂ ∧ n₂ / D₂ % 2 = 1)) := by
      rintro (hu | ⟨ht, ho⟩)
      · left
        exact Nat.lt_of_mul_lt_mul_left (a := D₁) (by nlinarith)
      · have : D₂ ≤ 2 * (n₂ % D₂) := Nat.le_of_mul_le_mul_left (by nlinarith) h₁
        rcases Nat.lt_or_eq_of_le this with hl | he
        · exact .inl hl
        · exact .inr ⟨he.symm, heq ▸ ho⟩
    by_cases c : (D₁ < 2 * (n₁ % D₁) ∨ (2 * (n₁ % D₁) = D₁ ∧ n₁ / D₁ % 2 = 1))
    · rw [if_pos c, if_pos (key c), heq]
    · rw [if_neg c]; split <;> omega

/-- Rounding is monotone in the exact quotient. -/
theorem roundMag_mono {n₁ d₁ n₂ d₂ : Nat} (h₁ : 0 < d₁) (h₂ : 0 < d₂) (h : n₁ * d₂ ≤ n₂ * d₁) :
    roundMag n₁ d₁ ≤ roundMag n₂ d₂ := by
  have hq : n₁ / d₁ ≤ n₂ / d₂ := by
    rw [Nat.le_div_iff_mul_le h₂]
    have : n₁ / d₁ * d₁ ≤ n₁ := Nat.div_mul_le_self _ _
    exact Nat.le_of_mul_le_mul_right (by nlinarith) h₁
  simp only [roundMag]
  have hk : Nat.log2 (n₁ / d₁) - 52 ≤ Nat.log2 (n₂ / d₂) - 52 := by
    have : Nat.log2 (n₁ / d₁) ≤ Nat.log2 (n₂ / d₂) := by
      rw [Nat.log2_eq_log_two, Nat.log2_eq_log_two]; exact Nat.log_mono_right hq
    omega
  generalize hk₁ : Nat.log2 (n₁ / d₁) - 52 = k₁ at *
  generalize hk₂ : Nat.log2 (n₂ / d₂) - 52 = k₂ at *
  have p₁ : 0 < d₁ * 2 ^ k₁ := by positivity
  have p₂ : 0 < d₂ * 2 ^ k₂ := by positivity
  apply min_le_min_right
  rcases Nat.lt_or_eq_of_le hk with hlt | rfl
  · have hi : n₁ / (d₁ * 2 ^ k₁) < 2 ^ 53 := by
      rw [← Nat.div_div_eq_div_mul, Nat.div_lt_iff_lt_mul (by positivity), ← pow_add]
      have := Nat.lt_log2_self (n := n₁ / d₁)
      exact lt_of_lt_of_le this (Nat.pow_le_pow_right (by decide) (by omega))
    have lo : 2 ^ 52 ≤ n₂ / (d₂ * 2 ^ k₂) := by
      rw [← Nat.div_div_eq_div_mul, Nat.le_div_iff_mul_le (by positivity), ← pow_add]
      have hne : n₂ / d₂ ≠ 0 := by
        intro h0; rw [h0] at hk₂; simp at hk₂; omega
      have := Nat.log2_self_le hne
      exact le_trans (Nat.pow_le_pow_right (by decide) (by omega)) this
    split <;> split <;> omega
  · have := roundHalfEven_mono p₁ p₂ (n₁ := n₁) (n₂ := n₂) (by
      calc n₁ * (d₂ * 2 ^ k₁) = n₁ * d₂ * 2 ^ k₁ := by ring
        _ ≤ n₂ * d₁ * 2 ^ k₁ := Nat.mul_le_mul_right _ h
        _ = n₂ * (d₁ * 2 ^ k₁) := by ring)
    omega

/-- A subnormal magnitude rounds to itself. -/
theorem roundMag_subnormal {f : Nat} (hf : f < 2 ^ 52) : roundMag f 1 = f := by
  have hl : Nat.log2 f - 52 = 0 := by
    rcases Nat.eq_zero_or_pos f with rfl | hp
    · simp
    · have := (Nat.log2_lt (k := 52) (by omega)).2 hf; omega
  simp only [roundMag, infBits, Nat.div_one, hl, pow_zero, Nat.mul_one, Nat.mod_one]
  rw [if_neg (by omega)]; omega

/-- A normal magnitude rounds to its own exponent and fraction. -/
theorem roundMag_normal {e f : Nat} (he : 0 < e) (he' : e < 2047) (hf : f < 2 ^ 52) :
    roundMag ((2 ^ 52 + f) * 2 ^ (e - 1)) 1 = e * 2 ^ 52 + f := by
  have hl : Nat.log2 ((2 ^ 52 + f) * 2 ^ (e - 1)) = 52 + (e - 1) := by
    rw [Nat.log2_eq_iff (by positivity)]
    constructor
    · rw [pow_add]; exact Nat.mul_le_mul_right _ (by omega)
    · rw [show 52 + (e - 1) + 1 = 53 + (e - 1) by omega, pow_add]
      exact Nat.mul_lt_mul_of_pos_right (by omega) (by positivity)
  have p : 0 < 2 ^ (e - 1) := by positivity
  simp only [roundMag, infBits, Nat.div_one, hl, Nat.one_mul, show 52 + (e - 1) - 52 = e - 1 by omega,
    Nat.mul_div_cancel _ p, Nat.mul_mod_left]
  rw [if_neg (by omega)]; omega

/-- Rounding changes no value of the domain. -/
theorem roundMag_magnitude {x : Pattern} (h : isFinite x = true) : roundMag (magnitude x) 1 = magBits x := by
  have hx : magBits x < infBits := by simpa [isFinite] using h
  have hf : magBits x % 2 ^ 52 < 2 ^ 52 := Nat.mod_lt _ (by decide)
  simp only [magnitude, infBits] at *
  split
  · rw [roundMag_subnormal hf]; omega
  · rw [roundMag_normal (by omega) (by omega) hf]; omega

/-- The order of finite patterns is the order of the values they stand for. -/
theorem magnitude_le_iff {x y : Pattern} (hx : isFinite x = true) (hy : isFinite y = true) :
    magnitude x ≤ magnitude y ↔ magBits x ≤ magBits y := by
  have fwd : ∀ {u v : Pattern}, isFinite u = true → isFinite v = true → magnitude u ≤ magnitude v →
      magBits u ≤ magBits v := fun hu hv h => by
    rw [← roundMag_magnitude hu, ← roundMag_magnitude hv]
    exact roundMag_mono Nat.one_pos Nat.one_pos (by omega)
  refine ⟨fwd hx hy, fun h => ?_⟩
  by_contra hc
  have heq := Nat.le_antisymm h (fwd hy hx (by omega))
  have : magnitude x = magnitude y := by simp only [magnitude, heq]
  omega

theorem key_le_iff {x y : Pattern} (hx : isFinite x = true) (hy : isFinite y = true) :
    key x ≤ key y ↔ scaled x ≤ scaled y := by
  have a := magnitude_le_iff hx hy
  have b := magnitude_le_iff hy hx
  have zx : magnitude x = 0 ↔ magBits x = 0 := by
    have := magnitude_le_iff hx (y := 0#64) (by decide)
    simp only [show magnitude 0#64 = 0 by decide, show magBits 0#64 = 0 by decide] at this
    omega
  have zy : magnitude y = 0 ↔ magBits y = 0 := by
    have := magnitude_le_iff hy (y := 0#64) (by decide)
    simp only [show magnitude 0#64 = 0 by decide, show magBits 0#64 = 0 by decide] at this
    omega
  simp only [key, scaled]
  split <;> split <;> omega

theorem lt_iff {x y : Pattern} : lt x y = true ↔ isNaN x = false ∧ isNaN y = false ∧ key x < key y := by
  simp [lt, and_assoc]

theorem le_iff {x y : Pattern} : le x y = true ↔ isNaN x = false ∧ isNaN y = false ∧ key x ≤ key y := by
  simp [le, and_assoc]

theorem isNaN_of_isFinite {x : Pattern} (h : isFinite x = true) : isNaN x = false := by
  simp [isFinite, isNaN] at *; omega

theorem isNaN_pack_roundMag (b : Bool) (n d : Nat) : isNaN (pack b (roundMag n d)) = false := by
  simp [isNaN, magBits_pack b (roundMag_lt n d), roundMag_le_inf]

/-! ### The domain on the whole carrier -/

@[simp] theorem ops_zero : ops.zero = .bits 0#64 := by decide +kernel
@[simp] theorem ops_one : ops.one = .bits 0x3FF0000000000000#64 := by decide +kernel
@[simp] theorem ops_kAtan : ops.kAtan = .bits 0x3FD243FE5C91D14E#64 := by decide +kernel

@[simp] theorem ops_add_bits (a b : Pattern) : ops.add (.bits a) (.bits b) = .bits (add a b) := rfl
@[simp] theorem ops_sub_bits (a b : Pattern) : ops.sub (.bits a) (.bits b) = .bits (sub a b) := rfl
@[simp] theorem ops_mul_bits (a b : Pattern) : ops.mul (.bits a) (.bits b) = .bits (mul a b) := rfl
@[simp] theorem ops_div_bits (a b : Pattern) : ops.div (.bits a) (.bits b) = .bits (div a b) := rfl
@[simp] theorem ops_neg_bits (a : Pattern) : ops.neg (.bits a) = .bits (neg a) := rfl
@[simp] theorem ops_abs_bits (a : Pattern) : ops.abs (.bits a) = .bits (abs a) := rfl
@[simp] theorem ops_floor_bits (a : Pattern) : ops.floor (.bits a) = .bits (floor a) := rfl
@[simp] theorem ops_lt_bits (a b : Pattern) : ops.lt (.bits a) (.bits b) = lt a b := rfl
@[simp] theorem ops_le_bits (a b : Pattern) : ops.le (.bits a) (.bits b) = le a b := rfl
@[simp] theorem ops_eq_bits (a b : Pattern) : ops.eq (.bits a) (.bits b) = eq a b := rfl
@[simp] theorem ops_isFinite_bits (a : Pattern) : ops.isFinite (.bits a) = isFinite a := rfl

/-- Only a binary64 number is finite. -/
theorem ops_isFinite_iff {x : NumVal} : ops.isFinite x = true ↔ ∃ a, x = .bits a ∧ isFinite a = true := by
  cases x with
  | bits a => simp
  | code n => simp [ops, finite]

/-- A comparison holds of binary64 numbers only. -/
theorem compare_iff {f : Pattern → Pattern → Bool} {x y : NumVal} :
    compare f x y = true ↔ ∃ a b, x = .bits a ∧ y = .bits b ∧ f a b = true := by
  cases x with
  | bits a => cases y <;> simp [compare]
  | code n => simp [compare]

/-- Whatever a primitive of two operands is given, it answers a binary64 number. -/
theorem binary_bits (f : Pattern → Pattern → Pattern) (x y : NumVal) : ∃ a, binary f x y = .bits a := by
  cases x with
  | bits a => cases y <;> exact ⟨_, rfl⟩
  | code n => exact ⟨_, rfl⟩

/-- A primitive of two operands with a finite result was given binary64 numbers. -/
theorem binary_finite {f : Pattern → Pattern → Pattern} {x y : NumVal} (h : finite (binary f x y) = true) :
    ∃ a b, x = .bits a ∧ y = .bits b ∧ isFinite (f a b) = true := by
  have nan : isFinite quietNaN = false := by decide
  cases x with
  | bits a =>
    cases y with
    | bits b => exact ⟨a, b, rfl, rfl, h⟩
    | code n => exact absurd h (by simp [binary, finite, nan])
  | code n => exact absurd h (by simp [binary, finite, nan])

end Sys2Proof.Machine.Binary64

namespace Sys2Proof.Machine

/-- A component kept finite is finite where the argument is (41_carrier_tracker.md R131). -/
theorem keepFinite_finite {N : NumOps} {x : NumVal} (h : N.isFinite x = true) (v : NumVal) :
    N.isFinite (keepFinite N x v) = true := by
  unfold keepFinite
  split
  · exact h
  · rename_i hv
    simpa [h] using hv

/-- A component that is finite is kept as it is. -/
theorem keepFinite_of_finite {N : NumOps} (x : NumVal) {v : NumVal} (h : N.isFinite v = true) :
    keepFinite N x v = v := by
  simp [keepFinite, h]

end Sys2Proof.Machine
end

