-- ==== Sys2Proof/Laws/State.lean ====
section
/-! SUPPORT. One lemma per field per update of the state and of the fields BITSTEP works on, each true
by rfl, so that no proof unfolds a record update. -/

namespace Sys2Proof.Machine

@[simp] theorem present_nco (s : State) (c : Command) (rest : List Command) : (present s c rest).nco = s.nco := rfl
@[simp] theorem present_bs (s : State) (c : Command) (rest : List Command) : (present s c rest).bs = s.bs := rfl
@[simp] theorem present_win (s : State) (c : Command) (rest : List Command) : (present s c rest).win = s.win := rfl
@[simp] theorem present_dec (s : State) (c : Command) (rest : List Command) : (present s c rest).dec = s.dec := rfl
@[simp] theorem present_data (s : State) (c : Command) (rest : List Command) : (present s c rest).data = s.data := rfl
@[simp] theorem present_fault (s : State) (c : Command) (rest : List Command) : (present s c rest).fault = s.fault := rfl
@[simp] theorem present_refused (s : State) (c : Command) (rest : List Command) : (present s c rest).refused = s.refused := rfl
@[simp] theorem present_cfg (s : State) (c : Command) (rest : List Command) : (present s c rest).cfg = s.cfg := rfl
@[simp] theorem present_program (s : State) (c : Command) (rest : List Command) : (present s c rest).program = rest := rfl
@[simp] theorem present_port (s : State) (c : Command) (rest : List Command) : (present s c rest).port = c := rfl
@[simp] theorem present_resp (s : State) (c : Command) (rest : List Command) : (present s c rest).resp = s.resp := rfl

@[simp] theorem clearResp_nco (s : State) : (clearResp s).nco = s.nco := rfl
@[simp] theorem clearResp_bs (s : State) : (clearResp s).bs = s.bs := rfl
@[simp] theorem clearResp_win (s : State) : (clearResp s).win = s.win := rfl
@[simp] theorem clearResp_dec (s : State) : (clearResp s).dec = s.dec := rfl
@[simp] theorem clearResp_data (s : State) : (clearResp s).data = s.data := rfl
@[simp] theorem clearResp_fault (s : State) : (clearResp s).fault = s.fault := rfl
@[simp] theorem clearResp_refused (s : State) : (clearResp s).refused = s.refused := rfl
@[simp] theorem clearResp_cfg (s : State) : (clearResp s).cfg = s.cfg := rfl
@[simp] theorem clearResp_program (s : State) : (clearResp s).program = s.program := rfl
@[simp] theorem clearResp_port (s : State) : (clearResp s).port = s.port := rfl
@[simp] theorem clearResp_resp (s : State) : (clearResp s).resp = Response.none := rfl

@[simp] theorem respondY_nco (s : State) (v : NumVal) : (respondY s v).nco = s.nco := rfl
@[simp] theorem respondY_bs (s : State) (v : NumVal) : (respondY s v).bs = s.bs := rfl
@[simp] theorem respondY_win (s : State) (v : NumVal) : (respondY s v).win = s.win := rfl
@[simp] theorem respondY_dec (s : State) (v : NumVal) : (respondY s v).dec = s.dec := rfl
@[simp] theorem respondY_data (s : State) (v : NumVal) : (respondY s v).data = s.data := rfl
@[simp] theorem respondY_fault (s : State) (v : NumVal) : (respondY s v).fault = s.fault := rfl
@[simp] theorem respondY_refused (s : State) (v : NumVal) : (respondY s v).refused = s.refused := rfl
@[simp] theorem respondY_cfg (s : State) (v : NumVal) : (respondY s v).cfg = s.cfg := rfl
@[simp] theorem respondY_program (s : State) (v : NumVal) : (respondY s v).program = s.program := rfl
@[simp] theorem respondY_port (s : State) (v : NumVal) : (respondY s v).port = s.port := rfl
@[simp] theorem respondY_resp (s : State) (v : NumVal) : (respondY s v).resp = { s.resp with y := some v } := rfl

@[simp] theorem emitBit_nco (s : State) (d : Bool) : (emitBit s d).nco = s.nco := rfl
@[simp] theorem emitBit_bs (s : State) (d : Bool) : (emitBit s d).bs = s.bs := rfl
@[simp] theorem emitBit_win (s : State) (d : Bool) : (emitBit s d).win = s.win := rfl
@[simp] theorem emitBit_dec (s : State) (d : Bool) : (emitBit s d).dec = s.dec := rfl
@[simp] theorem emitBit_data (s : State) (d : Bool) : (emitBit s d).data = s.data := rfl
@[simp] theorem emitBit_fault (s : State) (d : Bool) : (emitBit s d).fault = s.fault := rfl
@[simp] theorem emitBit_refused (s : State) (d : Bool) : (emitBit s d).refused = s.refused := rfl
@[simp] theorem emitBit_cfg (s : State) (d : Bool) : (emitBit s d).cfg = s.cfg := rfl
@[simp] theorem emitBit_program (s : State) (d : Bool) : (emitBit s d).program = s.program := rfl
@[simp] theorem emitBit_port (s : State) (d : Bool) : (emitBit s d).port = s.port := rfl
@[simp] theorem emitBit_resp (s : State) (d : Bool) : (emitBit s d).resp = { s.resp with bit := some d } := rfl

@[simp] theorem respondSyn_nco (s : State) (v : Syndrome) : (respondSyn s v).nco = s.nco := rfl
@[simp] theorem respondSyn_bs (s : State) (v : Syndrome) : (respondSyn s v).bs = s.bs := rfl
@[simp] theorem respondSyn_win (s : State) (v : Syndrome) : (respondSyn s v).win = s.win := rfl
@[simp] theorem respondSyn_dec (s : State) (v : Syndrome) : (respondSyn s v).dec = s.dec := rfl
@[simp] theorem respondSyn_data (s : State) (v : Syndrome) : (respondSyn s v).data = s.data := rfl
@[simp] theorem respondSyn_fault (s : State) (v : Syndrome) : (respondSyn s v).fault = s.fault := rfl
@[simp] theorem respondSyn_refused (s : State) (v : Syndrome) : (respondSyn s v).refused = s.refused := rfl
@[simp] theorem respondSyn_cfg (s : State) (v : Syndrome) : (respondSyn s v).cfg = s.cfg := rfl
@[simp] theorem respondSyn_program (s : State) (v : Syndrome) : (respondSyn s v).program = s.program := rfl
@[simp] theorem respondSyn_port (s : State) (v : Syndrome) : (respondSyn s v).port = s.port := rfl
@[simp] theorem respondSyn_resp (s : State) (v : Syndrome) : (respondSyn s v).resp = { s.resp with syn := some v } := rfl

@[simp] theorem setDecoder_nco (s : State) (v : Decoder) : (setDecoder s v).nco = s.nco := rfl
@[simp] theorem setDecoder_bs (s : State) (v : Decoder) : (setDecoder s v).bs = s.bs := rfl
@[simp] theorem setDecoder_win (s : State) (v : Decoder) : (setDecoder s v).win = v.win := rfl
@[simp] theorem setDecoder_dec (s : State) (v : Decoder) : (setDecoder s v).dec = v.dec := rfl
@[simp] theorem setDecoder_data (s : State) (v : Decoder) : (setDecoder s v).data = v.data := rfl
@[simp] theorem setDecoder_fault (s : State) (v : Decoder) : (setDecoder s v).fault = s.fault := rfl
@[simp] theorem setDecoder_refused (s : State) (v : Decoder) : (setDecoder s v).refused = s.refused := rfl
@[simp] theorem setDecoder_cfg (s : State) (v : Decoder) : (setDecoder s v).cfg = s.cfg := rfl
@[simp] theorem setDecoder_program (s : State) (v : Decoder) : (setDecoder s v).program = s.program := rfl
@[simp] theorem setDecoder_port (s : State) (v : Decoder) : (setDecoder s v).port = s.port := rfl
@[simp] theorem setDecoder_resp (s : State) (v : Decoder) : (setDecoder s v).resp = { s.resp with group := v.group } := rfl

@[simp] theorem presentWord_nco (s : State) (cw : CommandWord) : (presentWord s cw).nco = s.nco := rfl
@[simp] theorem presentWord_bs (s : State) (cw : CommandWord) : (presentWord s cw).bs = s.bs := rfl
@[simp] theorem presentWord_win (s : State) (cw : CommandWord) : (presentWord s cw).win = s.win := rfl
@[simp] theorem presentWord_dec (s : State) (cw : CommandWord) : (presentWord s cw).dec = s.dec := rfl
@[simp] theorem presentWord_data (s : State) (cw : CommandWord) : (presentWord s cw).data = s.data := rfl
@[simp] theorem presentWord_fault (s : State) (cw : CommandWord) : (presentWord s cw).fault = s.fault := rfl
@[simp] theorem presentWord_refused (s : State) (cw : CommandWord) : (presentWord s cw).refused = s.refused := rfl
@[simp] theorem presentWord_cfg (s : State) (cw : CommandWord) : (presentWord s cw).cfg = s.cfg := rfl
@[simp] theorem presentWord_program (s : State) (cw : CommandWord) : (presentWord s cw).program = ⟨cw, (ops s).zero, (ops s).zero⟩ :: s.program := rfl
@[simp] theorem presentWord_port (s : State) (cw : CommandWord) : (presentWord s cw).port = s.port := rfl
@[simp] theorem presentWord_resp (s : State) (cw : CommandWord) : (presentWord s cw).resp = s.resp := rfl

@[simp] theorem updateHistory_nco (s : State) (mf sync slope : NumVal) : (updateHistory s mf sync slope).nco = s.nco := rfl
@[simp] theorem updateHistory_bs (s : State) (mf sync slope : NumVal) : (updateHistory s mf sync slope).bs = ⟨sync, slope, mf, s.bs.lastBit⟩ := rfl
@[simp] theorem updateHistory_win (s : State) (mf sync slope : NumVal) : (updateHistory s mf sync slope).win = s.win := rfl
@[simp] theorem updateHistory_dec (s : State) (mf sync slope : NumVal) : (updateHistory s mf sync slope).dec = s.dec := rfl
@[simp] theorem updateHistory_data (s : State) (mf sync slope : NumVal) : (updateHistory s mf sync slope).data = s.data := rfl
@[simp] theorem updateHistory_fault (s : State) (mf sync slope : NumVal) : (updateHistory s mf sync slope).fault = s.fault := rfl
@[simp] theorem updateHistory_refused (s : State) (mf sync slope : NumVal) : (updateHistory s mf sync slope).refused = s.refused := rfl
@[simp] theorem updateHistory_cfg (s : State) (mf sync slope : NumVal) : (updateHistory s mf sync slope).cfg = s.cfg := rfl
@[simp] theorem updateHistory_program (s : State) (mf sync slope : NumVal) : (updateHistory s mf sync slope).program = s.program := rfl
@[simp] theorem updateHistory_port (s : State) (mf sync slope : NumVal) : (updateHistory s mf sync slope).port = s.port := rfl
@[simp] theorem updateHistory_resp (s : State) (mf sync slope : NumVal) : (updateHistory s mf sync slope).resp = s.resp := rfl

@[simp] theorem reacquire_nco (s : State) : (reacquire s).nco = ⟨(ops s).zero, s.cfg.freqCenter⟩ := rfl
@[simp] theorem reacquire_bs (s : State) : (reacquire s).bs = ⟨(ops s).zero, (ops s).zero, (ops s).zero, false⟩ := rfl
@[simp] theorem reacquire_win (s : State) : (reacquire s).win = 0#26 := rfl
@[simp] theorem reacquire_dec (s : State) : (reacquire s).dec = ⟨.bitsync, 0, 0, .zero, 0#8⟩ := rfl
@[simp] theorem reacquire_data (s : State) : (reacquire s).data = ⟨0#16, 0#16, 0#16, 0#16⟩ := rfl
@[simp] theorem reacquire_fault (s : State) : (reacquire s).fault = s.fault := rfl
@[simp] theorem reacquire_refused (s : State) : (reacquire s).refused = s.refused := rfl
@[simp] theorem reacquire_cfg (s : State) : (reacquire s).cfg = s.cfg := rfl
@[simp] theorem reacquire_program (s : State) : (reacquire s).program = s.program := rfl
@[simp] theorem reacquire_port (s : State) : (reacquire s).port = s.port := rfl
@[simp] theorem reacquire_resp (s : State) : (reacquire s).resp = s.resp := rfl

@[simp] theorem store_win (v : Decoder) : (store v).win = v.win := rfl
@[simp] theorem store_dec (v : Decoder) : (store v).dec = { v.dec with goff := if v.dec.block = 1 then (if groupType (payload v.win) then .four else .zero) else v.dec.goff } := rfl
@[simp] theorem store_data (v : Decoder) : (store v).data = setData v.data v.dec.block (payload v.win) := rfl
@[simp] theorem store_group (v : Decoder) : (store v).group = v.group := rfl

@[simp] theorem advance_win (v : Decoder) : (advance v).win = v.win := rfl
@[simp] theorem advance_dec (v : Decoder) : (advance v).dec = { v.dec with block := v.dec.block + 1 } := rfl
@[simp] theorem advance_data (v : Decoder) : (advance v).data = v.data := rfl
@[simp] theorem advance_group (v : Decoder) : (advance v).group = v.group := rfl

@[simp] theorem dispatch_win (v : Decoder) : (dispatch v).win = v.win := rfl
@[simp] theorem dispatch_dec (v : Decoder) : (dispatch v).dec = v.dec := rfl
@[simp] theorem dispatch_data (v : Decoder) : (dispatch v).data = v.data := rfl
@[simp] theorem dispatch_group (v : Decoder) : (dispatch v).group = some v.data := rfl

@[simp] theorem enter_win (v : Decoder) (st : DecodeState) : (enter v st).win = v.win := rfl
@[simp] theorem enter_dec (v : Decoder) (st : DecodeState) : (enter v st).dec = { v.dec with state := st } := rfl
@[simp] theorem enter_data (v : Decoder) (st : DecodeState) : (enter v st).data = v.data := rfl
@[simp] theorem enter_group (v : Decoder) (st : DecodeState) : (enter v st).group = v.group := rfl

@[simp] theorem setErrcnt_win (v : Decoder) (n : BitVec 8) : (setErrcnt v n).win = v.win := rfl
@[simp] theorem setErrcnt_dec (v : Decoder) (n : BitVec 8) : (setErrcnt v n).dec = { v.dec with errcnt := n } := rfl
@[simp] theorem setErrcnt_data (v : Decoder) (n : BitVec 8) : (setErrcnt v n).data = v.data := rfl
@[simp] theorem setErrcnt_group (v : Decoder) (n : BitVec 8) : (setErrcnt v n).group = v.group := rfl

@[simp] theorem acquire_win (v : Decoder) : (acquire v).win = v.win := rfl
@[simp] theorem acquire_dec (v : Decoder) : (acquire v).dec = ⟨.blocksync, 0, 1, .zero, v.dec.errcnt⟩ := rfl
@[simp] theorem acquire_data (v : Decoder) : (acquire v).data = { v.data with a := payload v.win } := rfl
@[simp] theorem acquire_group (v : Decoder) : (acquire v).group = v.group := rfl

@[simp] theorem demote_dec (c : Config) (v : Decoder) : (demote c v).dec = { v.dec with state := .bitsync } := by
  unfold demote; dsimp only; split <;> rfl

@[simp] theorem demote_data (c : Config) (v : Decoder) : (demote c v).data = v.data := by
  unfold demote; dsimp only; split <;> rfl

@[simp] theorem demote_group (c : Config) (v : Decoder) : (demote c v).group = v.group := by
  unfold demote; dsimp only; split <;> rfl

@[simp] theorem demote_win (c : Config) (v : Decoder) :
    (demote c v).win = if c.demoteClearsWindow then 0#26 else v.win := by
  unfold demote; dsimp only; split <;> rfl

@[simp] theorem decoder_win (s : State) : (decoder s).win = s.win := rfl
@[simp] theorem decoder_dec (s : State) : (decoder s).dec = s.dec := rfl
@[simp] theorem decoder_data (s : State) : (decoder s).data = s.data := rfl
@[simp] theorem decoder_group (s : State) : (decoder s).group = s.resp.group := rfl
@[simp] theorem decoder_setDecoder (s : State) (v : Decoder) : decoder (setDecoder s v) = v := rfl
@[simp] theorem setDecoder_decoder (s : State) : setDecoder s (decoder s) = s := rfl
@[simp] theorem ops_present (s : State) (c : Command) (rest : List Command) : ops (present s c rest) = ops s := rfl
@[simp] theorem ops_clearResp (s : State) : ops (clearResp s) = ops s := rfl
@[simp] theorem ops_emitBit (s : State) (d : Bool) : ops (emitBit s d) = ops s := rfl

/-- Reading a block-data slot after a write (10_state.md R34). -/
theorem dataAt_setData (g : Group) (j k : Fin 4) (v : Payload) :
    dataAt (setData g k v) j = if j = k then v else dataAt g j := by
  fin_cases j <;> fin_cases k <;> rfl

end Sys2Proof.Machine
end

