-- ==== Sys2Proof/Laws/Syndrome.lean ====
section
/-! SUPPORT. What the syndrome checker does (44_syndrome_fec.md R211 to R215). -/

namespace Sys2Proof.Machine

/-- Without correction a check reports the syndrome and leaves the window (44_syndrome_fec.md R211). -/
@[simp] theorem checkBlock_noFec (w : Window) (off : Syndrome) :
    checkBlock w off false = (syn w ^^^ off, w) := by
  simp [checkBlock]

/-- A clean block is never touched by the corrector (44_syndrome_fec.md R214). -/
theorem checkBlock_clean {w : Window} {off : Syndrome} (h : syn w ^^^ off = 0#10) (f : Bool) :
    checkBlock w off f = (0#10, w) := by
  simp [checkBlock, h]

/-- A block that does not check clean goes through the corrector (44_syndrome_fec.md R214). -/
theorem checkBlock_fec {w : Window} {off : Syndrome} (h : syn w ^^^ off ≠ 0#10) :
    checkBlock w off true = meggitt (syn w ^^^ off) w := by
  simp [checkBlock, h]

theorem synLoop_cons (row : Syndrome) (rows : List Syndrome) (s : Syndrome) (blk : BitVec 16) :
    synLoop (row :: rows) s blk = synLoop rows (if blk.getLsbD 15 then s ^^^ row else s) (blk <<< 1) := rfl

/-- What one Meggitt iteration does to the window: it flips the mask's bit or leaves the window,
by the syndrome alone (44_syndrome_fec.md R215). -/
theorem meggittStep_window (s : Syndrome) (w m : Window) :
    (meggittStep s w m).2 = if burstTrapped s then w ^^^ m else w := by
  unfold meggittStep; split <;> [rfl; (split <;> rfl)]

/-- The syndrome after one Meggitt iteration does not depend on the window. -/
theorem meggittStep_syndrome (s : Syndrome) (w m w' m' : Window) :
    (meggittStep s w m).1 = (meggittStep s w' m').1 := by
  unfold meggittStep; split <;> [rfl; (split <;> rfl)]

end Sys2Proof.Machine
end

