-- ==== Sys2Proof/Laws/BlockSync.lean ====
section
/-! SUPPORT. What the operations of the block/group state machine do, said once each: which case of
an arm runs and what it gives, and what BITSTEP leaves alone. -/

namespace Sys2Proof.Machine

/-- Bit counting does one of two things: the counter moves, or it returns to 0 and the boundary action
runs (43_block_sync.md R183). -/
theorem countBit_cases (f : Decoder → Decoder) (v : Decoder) :
    (∃ h : v.dec.bitcnt.val + 1 < 26,
        countBit f v = { v with dec := { v.dec with bitcnt := ⟨v.dec.bitcnt.val + 1, h⟩ } }) ∨
      (v.dec.bitcnt = 25 ∧ countBit f v = f { v with dec := { v.dec with bitcnt := 0 } }) := by
  unfold countBit
  split
  · rename_i h; exact .inl ⟨h, rfl⟩
  · refine .inr ⟨Fin.ext ?_, rfl⟩
    have := v.dec.bitcnt.isLt
    show v.dec.bitcnt.val = 25
    omega

/-- At the last bit of a block the boundary action runs (43_block_sync.md R183). -/
theorem countBit_boundary (f : Decoder → Decoder) {v : Decoder} (h : v.dec.bitcnt = 25) :
    countBit f v = f { v with dec := { v.dec with bitcnt := 0 } } := by
  unfold countBit
  rw [dif_neg (by rw [h]; decide)]

/-- The advance wraps to block A exactly from block D (43_block_sync.md R176). -/
theorem block_wraps (k : Fin 4) : k + 1 = 0 ↔ k = 3 := by revert k; decide

/-- A block boundary in BLOCKSYNC: a demotion, a good block A, B or C stored, or a good block D that
dispatches (43_block_sync.md R184 to R187). -/
theorem blocksyncBoundary_cases (c : Config) (v : Decoder) :
    (syn v.win ≠ targetOffset v.dec ∧ blocksyncBoundary c v = demote c v) ∨
      (syn v.win = targetOffset v.dec ∧ v.dec.block ≠ 3 ∧ blocksyncBoundary c v = advance (store v)) ∨
      (syn v.win = targetOffset v.dec ∧ v.dec.block = 3 ∧
        blocksyncBoundary c v = enter (setErrcnt (dispatch (advance (store v))) 0#8) .groupdecode) := by
  unfold blocksyncBoundary blocksyncGood
  rw [checkBlock_noFec]
  by_cases h : syn v.win = targetOffset v.dec
  · rw [if_pos (BitVec.xor_eq_zero_iff.2 h)]
    by_cases hb : v.dec.block = 3
    · exact .inr (.inr ⟨h, hb, if_pos ((block_wraps _).2 hb)⟩)
    · exact .inr (.inl ⟨h, hb, if_neg fun k => hb ((block_wraps _).1 k)⟩)
  · exact .inl ⟨h, if_neg fun k => h (BitVec.xor_eq_zero_iff.1 k)⟩

/-- Loss of lock, as an inequality (43_block_sync.md R191). -/
theorem limitExceeded_iff (c : Config) (n : BitVec 8) :
    limitExceeded c n = true ↔ c.blockErrorLimit < n.toNat := decide_eq_true_iff

/-- A bad block in GROUPDECODE: a demotion, the start of a fresh group, or GROUPRESYNC
(43_block_sync.md R190 to R192). -/
theorem groupdecodeBad_cases (c : Config) (v : Decoder) :
    (c.blockErrorLimit < (v.dec.errcnt + 1#8).toNat ∧
        groupdecodeBad c v = demote c (setErrcnt v (v.dec.errcnt + 1#8))) ∨
      ((v.dec.errcnt + 1#8).toNat ≤ c.blockErrorLimit ∧ v.dec.block = 3 ∧
        groupdecodeBad c v = advance (setErrcnt v (v.dec.errcnt + 1#8))) ∨
      ((v.dec.errcnt + 1#8).toNat ≤ c.blockErrorLimit ∧ v.dec.block ≠ 3 ∧
        groupdecodeBad c v = enter (advance (setErrcnt v (v.dec.errcnt + 1#8))) .groupresync) := by
  have hl := limitExceeded_iff c (v.dec.errcnt + 1#8)
  unfold groupdecodeBad
  by_cases h : limitExceeded c (v.dec.errcnt + 1#8) = true
  · exact .inl ⟨hl.1 h, if_pos h⟩
  · have hn : (v.dec.errcnt + 1#8).toNat ≤ c.blockErrorLimit := Nat.le_of_not_lt fun k => h (hl.2 k)
    simp only [if_neg h]
    by_cases hb : v.dec.block = 3
    · exact .inr (.inl ⟨hn, hb, if_pos ((block_wraps _).2 hb)⟩)
    · exact .inr (.inr ⟨hn, hb, if_neg fun k => hb ((block_wraps _).1 k)⟩)

/-- A good block in GROUPDECODE: stored, and a block D dispatches (43_block_sync.md R193, R194). -/
theorem groupdecodeGood_cases (v : Decoder) :
    (v.dec.block ≠ 3 ∧ groupdecodeGood v = advance (store v)) ∨
      (v.dec.block = 3 ∧ groupdecodeGood v = dispatch (setErrcnt (advance (store v)) 0#8)) := by
  unfold groupdecodeGood
  by_cases hb : v.dec.block = 3
  · exact .inr ⟨hb, if_pos ((block_wraps _).2 hb)⟩
  · exact .inl ⟨hb, if_neg fun k => hb ((block_wraps _).1 k)⟩

/-- A block boundary in GROUPRESYNC: the next target, or back to GROUPDECODE (43_block_sync.md
R195). -/
theorem groupresyncBoundary_cases (v : Decoder) :
    (v.dec.block ≠ 3 ∧ groupresyncBoundary v = advance v) ∨
      (v.dec.block = 3 ∧ groupresyncBoundary v = enter (advance v) .groupdecode) := by
  unfold groupresyncBoundary
  by_cases hb : v.dec.block = 3
  · exact .inr ⟨hb, if_pos ((block_wraps _).2 hb)⟩
  · exact .inl ⟨hb, if_neg fun k => hb ((block_wraps _).1 k)⟩

/-- What BITSTEP leaves of the state: every field but the window, the decode state, the block data and
the group of the response (43_block_sync.md R171). -/
theorem bitStep_eq (d : Bool) (s : State) :
    bitStep d s = setDecoder s (decoderStep s.cfg d (decoder s)) := rfl

@[simp] theorem bitStep_nco (d : Bool) (s : State) : (bitStep d s).nco = s.nco := rfl
@[simp] theorem bitStep_bs (d : Bool) (s : State) : (bitStep d s).bs = s.bs := rfl
@[simp] theorem bitStep_fault (d : Bool) (s : State) : (bitStep d s).fault = s.fault := rfl
@[simp] theorem bitStep_refused (d : Bool) (s : State) : (bitStep d s).refused = s.refused := rfl
@[simp] theorem bitStep_cfg (d : Bool) (s : State) : (bitStep d s).cfg = s.cfg := rfl
@[simp] theorem bitStep_program (d : Bool) (s : State) : (bitStep d s).program = s.program := rfl
@[simp] theorem bitStep_port (d : Bool) (s : State) : (bitStep d s).port = s.port := rfl
@[simp] theorem decoder_bitStep (d : Bool) (s : State) :
    decoder (bitStep d s) = decoderStep s.cfg d (decoder s) := rfl

/-- A detected peak changes `lastBit` of the bit-sync state and nothing else of it
(42_bitsync_demod.md R155, R156). -/
theorem demodulate_bs (s : State) :
    (demodulate s).bs = { s.bs with lastBit := rawBit (ops s) s.bs.lastData } := rfl

/-- The fields BITSTEP works on after a detected peak are those after BITSTEP of the data bit
(42_bitsync_demod.md R156). -/
theorem decoder_demodulate (s : State) :
    decoder (demodulate s) = decoderStep s.cfg (rawBit (ops s) s.bs.lastData ^^ s.bs.lastBit) (decoder s) := rfl

end Sys2Proof.Machine
end

