-- ==== Sys2Proof/Laws/Exec.lean ====
section
/-! SUPPORT. One inversion lemma per command that can stop, and per step: if it answers a next
state, this is what was tested and this is that state. -/

namespace Sys2Proof.Machine

theorem execPll_next {s t : State} (h : execPll s = .next t) :
    let v := pllValues s.cfg s.nco (operandRe s) (operandIm s)
    allFinite (ops s) [operandRe s, operandIm s] = true ∧ allFinite (ops s) (pllChecked v) = true ∧
      t = respondY { clearResp s with nco := ⟨v.p1, v.f2⟩ } v.dim := by
  simp only [execPll] at h
  split at h <;> rename_i ho
  · split at h <;> rename_i hr
    · injection h with h; exact ⟨ho, hr, h.symm⟩
    · cases h
  · cases h

theorem execSqr_next {s t : State} (h : execSqr s = .next t) :
    (ops s).isFinite (operandX s) = true ∧ (ops s).isFinite ((ops s).mul (operandX s) (operandX s)) = true ∧
      t = respondY (clearResp s) ((ops s).mul (operandX s) (operandX s)) := by
  simp only [execSqr] at h
  split at h <;> rename_i ho
  · split at h <;> rename_i hr
    · injection h with h; exact ⟨ho, hr, h.symm⟩
    · cases h
  · cases h

theorem execSync_next {s t : State} (h : execSync s = .next t) :
    let slope := (ops s).sub (operandSync s) s.bs.lastSync
    let prod := (ops s).mul s.bs.lastSlope slope
    allFinite (ops s) [operandMf s, operandSync s] = true ∧ allFinite (ops s) [slope, prod] = true ∧
      t = updateHistory (if peakDetected (ops s) slope prod then demodulate (clearResp s) else clearResp s)
        (operandMf s) (operandSync s) slope := by
  simp only [execSync] at h
  split at h <;> rename_i ho
  · split at h <;> rename_i hr
    · injection h with h; exact ⟨ho, hr, h.symm⟩
    · cases h
  · cases h

/-- A command can be stepped exactly when no stop is recorded. -/
theorem quiescent_eq_none_iff (s : State) : quiescent s = none ↔ s.fault = none ∧ s.refused = none := by
  unfold quiescent
  split <;> simp_all

/-- A next state of the step: nothing was presented and nothing changed, or the command at the head
of the program was executed. No stop was recorded. -/
theorem step_next {s t : State} (h : step s = .next t) :
    quiescent s = none ∧
      ((s.program = [] ∧ t = s) ∨
        ∃ c rest i, s.program = c :: rest ∧ decode c.cw = .command i ∧ exec i (present s c rest) = .next t) := by
  unfold step at h
  split at h <;> rename_i hq
  · subst h
    unfold quiescent at hq
    split at hq <;> simp at hq
  · refine ⟨hq, ?_⟩
    cases hp : s.program with
    | nil =>
      simp only [fetch, hp] at h
      injection h with h
      exact .inl ⟨rfl, h.symm⟩
    | cons c rest =>
      cases hd : decode c.cw with
      | command i => simp only [fetch, hp, hd] at h; exact .inr ⟨c, rest, i, rfl, hd, h⟩
      | reservedOpcode => simp only [fetch, hp, hd] at h; cases h
      | reservedBits => simp only [fetch, hp, hd] at h; cases h

/-- `withFetchWord` puts a command where the very next step takes it from: that step executes it, at
the state with the command at the port and everything else unchanged. -/
theorem step_withFetchWord {s : State} (hq : quiescent s = none) {w : Nat} {i : Instr}
    (hd : decode (BitVec.ofNat 16 w) = .command i) (nbits : Nat) :
    step (s.withFetchWord nbits w) =
      exec i { s with port := ⟨BitVec.ofNat 16 w, (ops s).zero, (ops s).zero⟩ } := by
  have hq' : quiescent (s.withFetchWord nbits w) = none := hq
  unfold step
  rw [hq']
  simp only [fetch, State.withFetchWord, presentWord, hd]
  rfl

end Sys2Proof.Machine
end

