-- ==== Sys2Proof/Laws/PerInstr.lean ====
section
/-! SUPPORT. Facts about every command as syntax, one lemma per constructor. -/

namespace Sys2Proof.Laws.TableRow

/-- The `match` and `mask` of a command's row in spec/opcode_table.json. -/
def row : Instr → BitVec 16 × BitVec 16
  | .reset => (0x0001#16, 0xFFFF#16)
  | .pll => (0x0002#16, 0xFFFF#16)
  | .pllend => (0x0003#16, 0xFFFF#16)
  | .sqr => (0x0004#16, 0xFFFF#16)
  | .sync => (0x0005#16, 0xFFFF#16)
  | .bit _ => (0x0006#16, 0xFFEF#16)
  | .check _ _ => (0x0007#16, 0xFF0F#16)

/-- The encoded word carries its row's fixed bits (spec/opcode_table.json). -/
def Statement (i : Instr) : Prop := encode i &&& (row i).2 = (row i).1

theorem reset : Statement .reset := by unfold Statement; decide
theorem pll : Statement .pll := by unfold Statement; decide
theorem pllend : Statement .pllend := by unfold Statement; decide
theorem sqr : Statement .sqr := by unfold Statement; decide
theorem sync : Statement .sync := by unfold Statement; decide
theorem bit (b : Bool) : Statement (.bit b) := by revert b; unfold Statement; decide
theorem check (o : Fin 8) (f : Bool) : Statement (.check o f) := by revert o f; unfold Statement; decide

end Sys2Proof.Laws.TableRow
end

