-- ==== Sys2Proof/Tests/Slice0.lean ====
section
/-! SUPPORT. The model's own tests: the decoder on words written out from the formats of
30_encoding.md, the refusals of WellFormed, the constants of 00_scope.md, one-step vectors of
95_test_vectors.md, and for every obligation with hypotheses a concrete state that meets them. -/

namespace Sys2Proof.Tests

open Sys2Proof Sys2Proof.Machine

-- One theorem at a time: each closed evaluation in the kernel would otherwise wait in a thread of its own.
set_option Elab.async false

/-! ### Helpers -/

/-- The command answers a next state of which `p` holds. -/
def answers (o : StepOutcome) (p : State → Bool) : Bool :=
  match o with
  | .next t => p t
  | .fault _ => false
  | .refused _ => false

def completes (o : StepOutcome) : Bool := answers o fun _ => true

def faultsWith (o : StepOutcome) (f : Fault) : Bool :=
  match o with
  | .next _ => false
  | .fault g => decide (g = f)
  | .refused _ => false

def refusesWith (o : StepOutcome) (x : Refusal) : Bool :=
  match o with
  | .next _ => false
  | .fault _ => false
  | .refused y => decide (y = x)

theorem exists_next {o : StepOutcome} (h : completes o = true) : ∃ t, o = .next t := by
  cases o with
  | next t => exact ⟨t, rfl⟩
  | fault f => cases h
  | refused x => cases h

theorem exists_answer {o : StepOutcome} {P : State → Prop} [∀ t, Decidable (P t)]
    (h : answers o (fun t => decide (P t)) = true) : ∃ t, o = .next t ∧ P t := by
  cases o with
  | next t => exact ⟨t, rfl, of_decide_eq_true h⟩
  | fault f => cases h
  | refused x => cases h

theorem eq_fault {o : StepOutcome} {f : Fault} (h : faultsWith o f = true) : o = .fault f := by
  cases o with
  | next t => cases h
  | fault g => exact congrArg _ (of_decide_eq_true h)
  | refused x => cases h

theorem eq_refused {o : StepOutcome} {x : Refusal} (h : refusesWith o x = true) : o = .refused x := by
  cases o with
  | next t => cases h
  | fault g => cases h
  | refused y => exact congrArg _ (of_decide_eq_true h)

/-- The decimal `± m * 10^e` of a test vector. -/
def dec (negative : Bool) (m : Nat) (e : Int) : NumVal := Binary64.ops.num ⟨negative, m, e⟩

def inf : NumVal := .bits 0x7FF0000000000000#64
def nan : NumVal := .bits 0x7FF8000000000000#64
def minusZero : NumVal := .bits 0x8000000000000000#64

/-- The reset state with two operand values at the port. -/
def withOps (a b : NumVal) : State := { State.reset with port := ⟨0#16, a, b⟩ }

/-- The reset state with one command word to come. -/
def withWord (cw : CommandWord) : State := { State.reset with program := [⟨cw, .bits 0#64, .bits 0#64⟩] }

/-- Block A of g1 of 95_test_vectors.md section 9. -/
def good : Window := 0x048D06A#26

/-- The window before the last bit of a block word arrives; the bit above it is gone by then. -/
def beforeLast (w : Window) : Window := w >>> 1

/-- A state of the block/group state machine before a block's last bit. -/
def atBoundary (st : DecodeState) (k : Fin 4) (g : GroupOffset) (n : BitVec 8) (w : Window) : State :=
  { State.reset with win := beforeLast w, dec := ⟨st, 25, k, g, n⟩ }

/-- SYNC's history before a peak: the last sample was +0.5 and the slope 1 (V-BS-1, step 2). -/
def beforePeak (mf sync : NumVal) : State :=
  { withOps mf sync with bs := ⟨dec false 1 0, dec false 1 0, dec false 5 (-1), false⟩ }

/-! ### Decoding: one word of each command, written out from the formats of 30_encoding.md R82 -/

theorem test_decode_reset : decode 0b0000000000000001#16 = .command .reset := by decide
theorem test_decode_pll : decode 0b0000000000000010#16 = .command .pll := by decide
theorem test_decode_pllend : decode 0b0000000000000011#16 = .command .pllend := by decide
theorem test_decode_sqr : decode 0b0000000000000100#16 = .command .sqr := by decide
theorem test_decode_sync : decode 0b0000000000000101#16 = .command .sync := by decide
theorem test_decode_bit :
    decode 0b0000000000000110#16 = .command (.bit false) ∧ decode 0b0000000000010110#16 = .command (.bit true) := by
  decide
/-- `f = 1`, `o = 6` (V-ENC-14), and `f = 0`, `o = 1`: no bit of the two fields is swapped. -/
theorem test_decode_check :
    decode 0b0000000011100111#16 = .command (.check 6 true) ∧
      decode 0b0000000000010111#16 = .command (.check 1 false) := by decide
theorem test_decode_reserved :
    decode 0b0000000000001000#16 = .reservedOpcode ∧ decode 0b0000000000100110#16 = .reservedBits ∧
      decode 0b0000000100000111#16 = .reservedBits := by decide
theorem test_decodeTableWord :
    decodeTableWord 16 0x00E7 = some (.check 6 true) ∧ decodeTableWord 16 0x0011 = none ∧
      decodeTableWord 16 0x10001 = none := by decide

/-- A command word given to the step from reset runs that command. -/
theorem test_withFetchWord :
    ([0x0001, 0x0002, 0x0003, 0x0004, 0x0005, 0x0006, 0x0016, 0x0007, 0x00F7].all fun w =>
      completes (step (State.reset.withFetchWord 16 w))) = true := by decide +kernel

/-! ### WellFormed refuses what 30_encoding.md R89 to R93 do not allow -/

theorem test_wf_bit : (AsmLine.bit 2).wf = false ∧ (AsmLine.bit 1).wf = true := by decide
theorem test_wf_check_index :
    (AsmLine.check (.index 8) 0).wf = false ∧ (AsmLine.check (.index 7) 1).wf = true := by decide
theorem test_wf_check_flag :
    (AsmLine.check (.name .CP) 2).wf = false ∧ (AsmLine.check (.name .CP) 1).wf = true := by decide
theorem test_wf_bits_empty : (AsmLine.bits 0 0).wf = false := by decide
theorem test_wf_bits_long : (AsmLine.bits 0 65).wf = false ∧ (AsmLine.bits 0 64).wf = true := by decide
theorem test_wf_bits_value : (AsmLine.bits 8 3).wf = false ∧ (AsmLine.bits 7 3).wf = true := by decide
theorem test_wf_samples : (AsmLine.samples []).wf = false := by decide
theorem test_wf_block : (AsmLine.block 0x10000 .A).wf = false ∧ (AsmLine.block 0xFFFF .A).wf = true := by decide
theorem test_wf_group :
    (AsmLine.group 0x10000 0 0 0).wf = false ∧ (AsmLine.group 0 0x10000 0 0).wf = false ∧
      (AsmLine.group 0 0 0x10000 0).wf = false ∧ (AsmLine.group 0 0 0 0x10000).wf = false := by decide
/-- Every decoded command is well-formed: its ranges are its types. -/
theorem test_wf_instr : (∀ b, (Instr.bit b).wf = true) ∧ ∀ o f, (Instr.check o f).wf = true := by decide

/-! ### Constants (00_scope.md R11; 95_test_vectors.md section 1) -/

theorem test_literals :
    Binary64.ops.kAtan = .bits 0x3FD243FE5C91D14E#64 ∧ Binary64.ops.zero = .bits 0#64 ∧
      Binary64.ops.one = .bits 0x3FF0000000000000#64 ∧
      dec false 314159265358979323846264338327950288 (-35) = Binary64.ops.pi ∧
      dec false 157079632679489661923132169163975144 (-35) = Binary64.ops.piHalf ∧
      dec false 628318530717958647692528676655900576 (-35) = Binary64.ops.twoPi := by decide +kernel
/-- One value for each decimal: 2500e-6, 0.0025 and 0e7 name 0.0025, 0.0025 and 0. -/
theorem test_num_of_decimal :
    stripTens 12 2500 (-6) = (25, -4) ∧ stripTens 5 25 (-4) = (25, -4) ∧ stripTens 1 0 7 = (0, 0) ∧
      stripTens 4 10 0 = (1, 1) := by decide
theorem test_reference_configuration :
    Config.reference.alpha = dec false 1 (-1) ∧ Config.reference.beta = dec false 25 (-4) ∧
      Config.reference.freqRange = dec false 1 (-2) := by decide +kernel
/-- K-3. -/
theorem test_syndrome_of_single_bits :
    syn (1#26 <<< 25) = 0x200#10 ∧ syn (1#26 <<< 16) = 0x001#10 ∧ syn (1#26 <<< 15) = 0x2DC#10 ∧
      syn (1#26 <<< 10) = 0x313#10 ∧ syn (1#26 <<< 9) = 0x355#10 ∧ syn 1#26 = 0x31B#10 := by decide
/-- K-5 and the block words of section 1. -/
theorem test_blockWord :
    blockWord 0x1234#16 .A = 0x048D06A#26 ∧ blockWord 0x0567#16 .B = 0x0159D52#26 ∧
      blockWord 0x89AB#16 .C = 0x226ADFB#26 ∧ blockWord 0xCDEF#16 .D = 0x337BFDA#26 ∧
      blockWord 0x4F4F#16 .CP = 0x13D3E58#26 := by decide +kernel
/-- `BITS 0x5, 3` (section 3). -/
theorem test_assemble_bits :
    (assemble Binary64.ops (.bits 5 3)).map (·.map Command.cw) = some [0x0016#16, 0x0006#16, 0x0016#16] := by
  decide +kernel

/-! ### One-step vectors of 95_test_vectors.md; the decimal results are the table's -/

/-- V-AT-2, V-AT-5, V-AT-11, V-AT-16: the second case at |z| = 1, y = -0, no +PI, and neg(PI). -/
theorem test_fastAtan2 :
    fastAtan2 Binary64.ops (dec false 1 0) (dec false 1 0) = dec false 7928283790743427 (-16) ∧
      fastAtan2 Binary64.ops minusZero (dec true 1 0) = Binary64.ops.pi ∧
      fastAtan2 Binary64.ops (dec false 2 0) (dec true 1 0) = dec false 20374972181935993 (-16) ∧
      fastAtan2 Binary64.ops (dec true 1 (-17)) (dec true 1 0) = Binary64.ops.neg Binary64.ops.pi := by decide +kernel

/-- V-PLL-1. -/
theorem test_pll :
    answers (exec .pll (withOps (dec false 6 (-1)) (dec false 8 (-1)))) (fun t =>
      decide (t.resp.y = some (dec false 8 (-1)) ∧ t.nco.freq = dec true 23113601286208598 (-19) ∧
        t.nco.phase = dec true 9476576527345525 (-17))) = true := by decide +kernel

/-- V-PLL-4b: a non-zero SINCOS argument, and the clamp at LO. -/
theorem test_pll_clamped :
    answers (exec .pll { withOps (dec true 1 0) (.bits 0#64) with
        nco := ⟨dec true 3220132469929538 (-16), dec true 7853981633974483 (-18)⟩ }) (fun t =>
      decide (t.resp.y = some (dec false 31647696718158613 (-17)) ∧ t.nco.freq = dec true 1 (-2) ∧
        t.nco.phase = dec true 6138371745764641 (-16))) = true := by decide +kernel

/-- V-WR-2 (the phase -0, and the floor of it), V-WR-5, V-WR-6, V-WR-8, V-WR-10. -/
theorem test_wrap :
    wrap Binary64.ops minusZero = minusZero ∧ Binary64.ops.floor minusZero = minusZero ∧
      wrap Binary64.ops (dec false 7 0) = dec false 7168146928204138 (-16) ∧
      wrap Binary64.ops (dec true 1 (-20)) = .bits 0#64 ∧
      wrap Binary64.ops (dec true 7 0) = dec false 55663706143591725 (-16) ∧
      wrap Binary64.ops (dec false 6283185307179585 (-15)) = dec false 6283185307179585 (-15) := by decide +kernel

/-- V-PLL-3. -/
theorem test_pllend :
    answers (exec .pllend { State.reset with
        nco := ⟨dec true 9476576527345525 (-17), dec true 23113601286208598 (-19)⟩ }) (fun t =>
      decide (t.nco.phase = dec false 6188419541906131 (-15) ∧
        t.nco.freq = dec true 23113601286208598 (-19))) = true := by decide +kernel

/-- V-SQ-1, V-SQ-4, V-SQ-5. -/
theorem test_sqr :
    ([(dec true 5 (-1), dec false 25 (-2)), (dec false 8 (-1), dec false 6400000000000001 (-16)),
      (dec false 1 (-200), .bits 0#64)].all fun p =>
        answers (exec .sqr (withOps p.1 (.bits 0#64))) fun t => decide (t.resp.y = some p.2)) = true := by decide +kernel

/-- V-BS-1, steps 2 and 10: a peak, and `lastData` = -0 giving raw bit 1. -/
theorem test_sync :
    answers (exec .sync (beforePeak (dec true 3 (-1)) (dec false 5 (-1)))) (fun t =>
      decide (t.resp.bit = some true ∧ t.bs.lastBit = true ∧ t.bs.lastSlope = dec true 5 (-1) ∧ t.win = 1#26)) = true ∧
    answers (exec .sync { withOps (dec false 3 (-1)) (dec false 2 (-1)) with
        bs := ⟨dec false 1 0, dec false 19999999999999996 (-17), minusZero, true⟩ }) (fun t =>
      decide (t.resp.bit = some false ∧ t.bs.lastBit = true)) = true := by decide +kernel

/-- 10_state.md R29: "0, 1, 2, 3 in that order". -/
theorem test_readoutCode :
    [DecodeState.bitsync, .blocksync, .groupdecode, .groupresync].map readoutCode = [0, 1, 2, 3] := by decide

/-- V-SM-1 and the last bit of V-SM-2. -/
theorem test_bit :
    answers (exec (.bit true) State.reset) (fun t => decide (t.win = 1#26 ∧ t.dec.state = .bitsync)) = true ∧
    answers (exec (.bit false) { State.reset with win := beforeLast good }) (fun t =>
      decide (t.win = good ∧ t.dec = ⟨.blocksync, 0, 1, .zero, 0#8⟩ ∧ t.data.a = 0x1234#16)) = true := by decide +kernel

/-- The bit 156 of PR-1 (a type B block B sets `goff`) and the bit 650 of PR-4 (demotion). -/
theorem test_bit_groupdecode :
    answers (exec (.bit true) (atBoundary .groupdecode 1 .zero 0#8 0x0B5A331#26)) (fun t =>
      decide (t.dec = ⟨.groupdecode, 0, 2, .four, 0#8⟩ ∧ t.data.b = 0x2D68#16)) = true ∧
    answers (exec (.bit true) (atBoundary .groupdecode 0 .zero 5#8 0x248D06B#26)) (fun t =>
      decide (t.dec = ⟨.bitsync, 0, 0, .zero, 6#8⟩ ∧ t.win = 0x248D06B#26)) = true := by decide +kernel

/-- V-FEC-3b, V-FEC-8, V-FEC-12, V-FEC-14: no correction, a corrected burst, a partial correction,
and a miscorrection. -/
theorem test_check :
    ([(good, Fin.ofNat 8 1, false, 0x00C#10, good), (0x054D06A#26, 0, true, 0#10, good),
      (0x048D66A#26, 0, true, 0x200#10, 0x048D26A#26), (0x278D06A#26, 0, true, 0#10, 0x278E06A#26)].all fun v =>
        answers (exec (.check v.2.1 v.2.2.1) { State.reset with win := v.1 }) fun t =>
          decide (t.resp.syn = some v.2.2.2.1 ∧ t.win = v.2.2.2.2)) = true := by decide +kernel

/-- RESET after a run of V-SM-2 and V-PLL-1. -/
theorem test_reset :
    answers (exec .reset { State.reset with
        win := good, dec := ⟨.blocksync, 3, 1, .four, 2#8⟩, nco := ⟨dec false 7 0, dec true 1 (-2)⟩ }) (fun t =>
      decide (t.win = 0#26 ∧ t.dec.state = .bitsync ∧ t.nco = State.reset.nco)) = true := by decide +kernel

/-- V-X-1, V-X-2, V-X-3, V-X-9. -/
theorem test_stops :
    refusesWith (step (withWord 0x0000#16)) (.reservedOpcode 0x0000#16) = true ∧
      refusesWith (step (withWord 0x0216#16)) (.reservedBits 0x0216#16) = true ∧
      faultsWith (exec .pll (withOps inf (.bits 0#64))) (.nonfiniteOperand .pll) = true ∧
      completes (exec .pllend (withOps (.bits 0#64) nan)) = true := by decide +kernel

/-- V-X-5, V-X-6, V-X-7. -/
theorem test_bad_configurations :
    badParam { Config.reference with freqRange := dec true 1 0 } = some .freqRange ∧
      badParam { Config.reference with blockErrorLimit := 255 } = some .blockErrorLimit ∧
      badParam { Config.reference with freqCenter := dec false 1 308, freqRange := dec false 1 308 } = some .hi := by
  decide +kernel

/-! ### Witnesses: for every obligation with hypotheses, a state and operands that meet them

Where a hypothesis is written out in the obligation, the witness states it through the model's own
definition of the same value (`syncRuns`, `cleanAt`, `pllValues`). -/

theorem witness_DecodeEncodeRoundTrip :
    (Instr.check 7 true).wf = true ∧ (Instr.bit false).wf = true ∧ Instr.pll.wf = true := by decide

theorem witness_LegalWordIsItsEncoding : decode 0x00F7#16 = .command (.check 7 true) := by decide

theorem witness_StepExecutesPresentedCommand :
    ((withWord 0x0002#16).fault = none ∧ (withWord 0x0002#16).refused = none ∧
      (withWord 0x0002#16).program = [⟨0x0002#16, .bits 0#64, .bits 0#64⟩] ∧ decode 0x0002#16 = .command .pll) ∧
    (State.reset.fault = none ∧ State.reset.refused = none ∧ State.reset.program = []) := by decide +kernel

/-- Opcodes 0x0, 0x8 and 0xF: both ranges at their ends. -/
theorem witness_ReservedOpcodeIsRefused :
    ([0x0000#16, 0x0008#16, 0xFFFF#16].all fun cw =>
      decide ((withWord cw).fault = none ∧ (withWord cw).refused = none ∧
        (withWord cw).program = [⟨cw, .bits 0#64, .bits 0#64⟩] ∧ (cw.toNat % 16 = 0 ∨ 8 ≤ cw.toNat % 16))) = true := by
  decide +kernel

/-- The lowest reserved bit of each format, and the lowest and highest opcode of format N. -/
theorem witness_ReservedBitsAreRefused :
    ([0x0011#16, 0xFFF5#16, 0x0026#16, 0x0107#16].all fun cw =>
      decide ((withWord cw).fault = none ∧ (withWord cw).refused = none ∧
        (withWord cw).program = [⟨cw, .bits 0#64, .bits 0#64⟩] ∧
        ((1 ≤ cw.toNat % 16 ∧ cw.toNat % 16 ≤ 5 ∧ 16 ≤ cw.toNat) ∨ (cw.toNat % 16 = 6 ∧ 32 ≤ cw.toNat) ∨
          (cw.toNat % 16 = 7 ∧ 256 ≤ cw.toNat)))) = true := by decide +kernel

theorem witness_StopIsRecordedAndSticky :
    (∃ s f, s.fault = none ∧ s.refused = none ∧ step s = .fault f) ∧
      ∃ s x, s.fault = none ∧ s.refused = none ∧ step s = .refused x :=
  ⟨⟨{ State.reset with program := [⟨0x0004#16, inf, .bits 0#64⟩] }, .nonfiniteOperand .sqr, by decide +kernel,
      by decide +kernel, eq_fault (by decide +kernel)⟩,
    ⟨withWord 0x0000#16, .reservedOpcode 0x0000#16, by decide +kernel, by decide +kernel,
      eq_refused (by decide +kernel)⟩⟩

theorem witness_StepNeverWritesConfiguration : ∃ t, step (withWord 0x0002#16) = .next t :=
  exists_next (by decide +kernel)

theorem witness_OnlyNumericCommandsFault :
    exec .pll (withOps inf (.bits 0#64)) = .fault (.nonfiniteOperand .pll) ∧
      exec .sqr (withOps (dec false 1 200) (.bits 0#64)) = .fault (.nonfiniteResult .sqr) ∧
      exec .sync (withOps (.bits 0#64) nan) = .fault (.nonfiniteOperand .sync) :=
  ⟨eq_fault (by decide +kernel), eq_fault (by decide +kernel), eq_fault (by decide +kernel)⟩

/-- Every item of 60_exceptions.md R245 refuses, the limit at its boundary; of two items that hold the
first names the refusal, and of two parameters of one item the first mentioned (log entry 16). -/
theorem witness_RefusedConfigurationStepsNothing :
    ([({ Config.reference with alpha := inf }, ConfigParam.alpha), ({ Config.reference with beta := nan }, .beta),
      ({ Config.reference with freqCenter := inf }, .freqCenter),
      ({ Config.reference with freqRange := nan }, .freqRange),
      ({ Config.reference with freqRange := .bits 0x8000000000000001#64 }, .freqRange),
      ({ Config.reference with freqCenter := dec true 1 308, freqRange := dec false 1 308 }, .lo),
      ({ Config.reference with freqCenter := dec false 1 308, freqRange := dec false 1 308 }, .hi),
      ({ Config.reference with blockErrorLimit := 255, freqRange := dec true 1 0 }, .freqRange),
      ({ Config.reference with alpha := inf, beta := inf }, .alpha),
      ({ Config.reference with blockErrorLimit := 255 }, .blockErrorLimit)].all fun p =>
        decide (badParam p.1 = some p.2)) = true ∧
      badParam { Config.reference with blockErrorLimit := 254, freqRange := minusZero } = none := by decide +kernel

/-- The hypotheses of PllTracksOneSample, as one Bool. -/
def pllRuns (s : State) : Bool :=
  allFinite (numOpsOf s.cfg.domain) [s.port.op0, s.port.op1] &&
    allFinite (numOpsOf s.cfg.domain) (pllChecked (pllValues s.cfg s.nco s.port.op0 s.port.op1))

/-- Within the range, clamped at LO, clamped at HI. -/
theorem witness_PllTracksOneSample :
    pllRuns (withOps (dec false 6 (-1)) (dec false 8 (-1))) = true ∧
      pllRuns { withOps (dec true 1 0) (.bits 0#64) with nco := ⟨.bits 0#64, dec true 1 (-2)⟩ } = true ∧
      pllRuns { withOps (.bits 0#64) (dec true 2 0) with nco := ⟨.bits 0#64, dec false 1 (-2)⟩ } = true := by decide +kernel

/-- A non-finite first and second operand, and V-X-4's overflow of `dre`. -/
theorem witness_PllFaultsOnNonfinite :
    let v := dec false 17 307
    let sc := sincosOf Config.reference (dec true 9476576527345525 (-17))
    Binary64.ops.isFinite inf = false ∧ Binary64.ops.isFinite nan = false ∧ Binary64.ops.isFinite v = true ∧
      Binary64.ops.isFinite (Binary64.ops.sub (Binary64.ops.mul sc.2 v) (Binary64.ops.mul sc.1 v)) = false := by
  decide +kernel

theorem reference_admissible : Admissible Config.reference := by
  unfold Admissible
  decide +kernel

theorem witness_TrackerStaysInBounds :
    State.reset.cfg.domain = .binary64 ∧ Admissible State.reset.cfg ∧
      (∃ t, exec .pll (withOps (dec false 6 (-1)) (dec false 8 (-1))) = .next t) ∧
      Binary64.ops.isFinite State.reset.nco.phase = true ∧ ∃ t, exec .pllend State.reset = .next t :=
  ⟨rfl, reference_admissible, exists_next (by decide +kernel), by decide +kernel, exists_next (by decide +kernel)⟩

theorem witness_FrequencyCenterLiesInRange : Config.reference.domain = .binary64 ∧ Admissible Config.reference :=
  ⟨rfl, reference_admissible⟩

theorem witness_FastAtan2StaysWithinPi :
    Binary64.ops.isFinite (dec true 1 (-17)) = true ∧ Binary64.ops.isFinite (dec true 1 0) = true ∧
      Binary64.ops.isFinite (fastAtan2 Binary64.ops (dec true 1 (-17)) (dec true 1 0)) = true := by decide +kernel

/-- x = -0 and x = 0 for the first clause, with y above, at and below 0; y = -0 for the second. -/
theorem witness_FastAtan2OnTheAxes :
    Binary64.ops.eq minusZero (.bits 0#64) = true ∧ Binary64.ops.eq (.bits 0#64) (.bits 0#64) = true ∧ Binary64.ops.lt (.bits 0#64) (.bits 1#64) = true ∧
      Binary64.ops.lt (dec true 1 0) (.bits 0#64) = true ∧ Binary64.ops.isFinite minusZero = true ∧
      Binary64.ops.isFinite (dec true 1 0) = true := by decide +kernel

/-- Both zeros and the largest phase below TWO_PI. -/
theorem witness_WrapKeepsAPhaseInTheTurn :
    ([(.bits 0#64), minusZero, .bits 0x401921FB54442D17#64].all fun p =>
      Binary64.ops.le (.bits 0#64) p && Binary64.ops.lt p Binary64.ops.twoPi) = true := by decide +kernel

theorem witness_TrackerCommandsFrame :
    (∃ t, exec .pll (withOps (.bits 0#64) (.bits 0#64)) = .next t) ∧ ∃ t, exec .pllend State.reset = .next t :=
  ⟨exists_next (by decide +kernel), exists_next (by decide +kernel)⟩

theorem witness_SqrAnswersTheSquare :
    Binary64.ops.isFinite (dec true 5 (-1)) = true ∧
      Binary64.ops.isFinite (Binary64.ops.mul (dec true 5 (-1)) (dec true 5 (-1))) = true := by decide +kernel

/-- SQR on an infinite operand and on an overflow; SYNC on either operand, on an overflowing slope
(V-BS-3) and on an overflowing product. -/
theorem witness_SqrAndSyncFaultOnNonfinite :
    Binary64.ops.isFinite inf = false ∧ Binary64.ops.isFinite nan = false ∧
      Binary64.ops.isFinite (dec false 1 200) = true ∧
      Binary64.ops.isFinite (Binary64.ops.mul (dec false 1 200) (dec false 1 200)) = false ∧
      Binary64.ops.isFinite (Binary64.ops.sub (dec true 1 308) (dec false 1 308)) = false ∧
      Binary64.ops.isFinite (Binary64.ops.sub (dec true 1 200) (.bits 0#64)) = true ∧
      Binary64.ops.isFinite (Binary64.ops.mul (dec false 1 200) (Binary64.ops.sub (dec true 1 200) (.bits 0#64))) = false := by
  decide +kernel

theorem witness_SquareIsNeverNegative :
    (∃ t, exec .sqr (withOps minusZero (.bits 0#64)) = .next t ∧ t.resp.y = some (.bits 0#64)) ∧
      Binary64.ops.eq minusZero (.bits 0#64) = true :=
  ⟨exists_answer (by decide +kernel), by decide +kernel⟩

/-- The operands, slope and product of a SYNC are finite. -/
def syncRuns (s : State) : Bool :=
  let N := numOpsOf s.cfg.domain
  let slope := N.sub s.port.op1 s.bs.lastSync
  allFinite N [s.port.op0, s.port.op1, slope, N.mul s.bs.lastSlope slope]

/-- A SYNC that detects a peak. -/
def syncDetects (s : State) : Bool :=
  let N := numOpsOf s.cfg.domain
  let slope := N.sub s.port.op1 s.bs.lastSync
  syncRuns s && N.lt slope N.zero && N.lt (N.mul s.bs.lastSlope slope) N.zero

/-- No peak for want of a negative slope (slope 0), and for want of a negative product (after a
plateau). -/
theorem witness_SyncWithoutPeakUpdatesHistory :
    syncRuns (withOps (.bits 0#64) (.bits 0#64)) = true ∧ Binary64.ops.lt (Binary64.ops.sub (.bits 0#64) (.bits 0#64)) (.bits 0#64) = false ∧
      syncRuns (withOps (.bits 0#64) (dec true 3 (-1))) = true ∧
      Binary64.ops.lt (Binary64.ops.sub (dec true 3 (-1)) (.bits 0#64)) (.bits 0#64) = true ∧
      Binary64.ops.lt (Binary64.ops.mul (.bits 0#64) (Binary64.ops.sub (dec true 3 (-1)) (.bits 0#64))) (.bits 0#64) = false := by decide +kernel

theorem witness_SyncAtPeakForwardsDataBit :
    syncDetects (beforePeak (dec true 3 (-1)) (dec false 5 (-1))) = true := by decide +kernel

theorem witness_SyncUpdatesHistory :
    ∃ t, exec .sync (beforePeak (dec true 3 (-1)) (dec false 5 (-1))) = .next t :=
  exists_next (by decide +kernel)

/-- Steps 2 and 3 of V-BS-1. -/
theorem witness_NoPeaksOnConsecutiveSyncs :
    answers (exec .sync (beforePeak (dec true 3 (-1)) (dec false 5 (-1)))) (fun t =>
      decide (t.resp.bit ≠ none) &&
        completes (exec .sync { t with port := ⟨0x0005#16, dec false 2 (-1), dec false 7 (-1)⟩ })) = true := by
  decide +kernel

/-- Step 7 of V-BS-1 (the last slope is 0), step 6 (the present slope is 0), and a first SYNC. -/
theorem witness_ZeroSlopeNeverDetects :
    answers (exec .sync { withOps minusZero (dec false 3 (-1)) with bs := ⟨dec false 6 (-1), .bits 0#64, .bits 0#64, true⟩ })
      (fun _ => true) = true ∧
    answers (exec .sync { withOps (.bits 0#64) (dec false 6 (-1)) with bs := ⟨dec false 6 (-1), dec true 3 (-1), .bits 0#64, true⟩ })
      (fun t => Binary64.ops.eq t.bs.lastSlope (.bits 0#64)) = true ∧
    completes (exec .sync { State.construct Config.reference with port := ⟨0x0005#16, dec false 5 (-1), dec false 1 0⟩ })
      = true := by decide +kernel

theorem witness_DataBitsIgnoreCarrierSign :
    Binary64.ops.le (.bits 0#64) (dec true 5 (-1)) = !Binary64.ops.le (.bits 0#64) (dec false 5 (-1)) ∧
      Binary64.ops.le (.bits 0#64) (dec false 3 (-1)) = !Binary64.ops.le (.bits 0#64) (dec true 3 (-1)) ∧
      Binary64.ops.isFinite (dec false 3 (-1)) = true ∧
      completes (exec .sync (beforePeak (dec true 3 (-1)) (dec false 5 (-1)))) = true := by decide +kernel

theorem witness_BitSyncCommandsFrame :
    (∃ t, exec .sqr (withOps (dec false 3 0) (.bits 0#64)) = .next t) ∧
      ∃ t, exec .sync (withOps (.bits 0#64) (.bits 0#64)) = .next t ∧ t.resp.bit = none :=
  ⟨exists_next (by decide +kernel), exists_answer (by decide +kernel)⟩

/-- A window that does not check clean and one that does. -/
theorem witness_BitsyncScansEveryBit :
    State.reset.dec.state = .bitsync ∧ syn (0#26 <<< 1 ||| 1#26) ≠ 0x3D8#10 ∧
      syn (beforeLast good <<< 1 ||| 0#26) = 0x3D8#10 := by decide +kernel

theorem witness_BitWithinABlockOnlyCounts :
    ([(DecodeState.blocksync, (0 : Fin 26)), (.groupdecode, 24), (.groupresync, 24)].all fun p =>
      let s := { State.reset with dec := ⟨p.1, p.2, 1, .zero, 0#8⟩ }
      decide (s.dec.state ≠ .bitsync ∧ s.dec.bitcnt.val < 25)) = true := by decide +kernel

/-- Whether a state's block checks clean, with or without correction, when its last bit `b` arrives:
the obligations' own expression. -/
def cleanAt (fec : Bool) (s : State) (b : Bool) : Bool :=
  decide ((checkBlock ((s.win <<< 1) ||| (if b = true then 1#26 else 0#26))
    (offsetSyndrome (Fin.ofNat 8 (s.dec.block.val + (if s.dec.goff = .four then 4 else 0)))) fec).1 = 0#10)

/-- Every `atBoundary` state is one bit before a boundary, in the state and at the target given. -/
theorem atBoundary_dec (st : DecodeState) (k : Fin 4) (g : GroupOffset) (n : BitVec 8) (w : Window) :
    (atBoundary st k g n w).dec = ⟨st, 25, k, g, n⟩ := rfl

/-- A bad block, and a good block of each index (C' for block C). -/
theorem witness_BlocksyncBoundary :
    cleanAt false (atBoundary .blocksync 1 .zero 0#8 0x159DA2#26) false = false ∧
      cleanAt false (atBoundary .blocksync 0 .zero 0#8 good) false = true ∧
      cleanAt false (atBoundary .blocksync 1 .zero 0#8 0x0B5A331#26) true = true ∧
      cleanAt false (atBoundary .blocksync 2 .four 0#8 0x13D3E58#26) false = true ∧
      cleanAt false (atBoundary .blocksync 3 .zero 0#8 0x337BFDA#26) false = true := by decide +kernel

/-- A good block of each index, and the corrected C' of PR-3. -/
theorem witness_GroupdecodeGoodBlock :
    cleanAt true (atBoundary .groupdecode 0 .zero 0#8 good) false = true ∧
      cleanAt true (atBoundary .groupdecode 1 .zero 0#8 0x0B5A331#26) true = true ∧
      cleanAt true (atBoundary .groupdecode 2 .four 0#8 0x1213E58#26) false = true ∧
      cleanAt true (atBoundary .groupdecode 3 .four 0#8 0x08080DC#26) false = true := by decide +kernel

/-- The bad A of PR-4 and the bad D of V-SM-6, below, at and beyond the limit 5. -/
theorem witness_GroupdecodeBadBlock :
    cleanAt true (atBoundary .groupdecode 0 .zero 5#8 0x248D06B#26) true = false ∧ 5 < (5#8 + 1#8).toNat ∧
      cleanAt true (atBoundary .groupdecode 0 .zero 4#8 0x248D06B#26) true = false ∧ (4#8 + 1#8).toNat ≤ 5 ∧
      cleanAt true (atBoundary .groupdecode 3 .zero 0#8 0x137BFDB#26) true = false ∧ (0#8 + 1#8).toNat ≤ 5 := by
  decide +kernel

theorem witness_GroupresyncBoundary :
    ([0, 1, 2, 3].all fun k =>
      let s := atBoundary .groupresync k .zero 1#8 0#26
      decide (s.dec.state = .groupresync ∧ s.dec.bitcnt = 25 ∧ s.dec.block = k)) = true := by decide +kernel

theorem witness_DecoderCommandsFrame :
    (∃ t, exec (.bit true) State.reset = .next t) ∧ ∃ t, exec (.check 7 false) State.reset = .next t :=
  ⟨⟨_, rfl⟩, ⟨_, rfl⟩⟩

/-- Two states that differ in the NCO and the bit-sync state only. -/
theorem witness_BitReadsOnlyDecoderState :
    SameDecoder State.reset
        { State.reset with nco := ⟨dec false 1 0, .bits 0#64⟩, bs := ⟨.bits 1#64, .bits 2#64, .bits 3#64, true⟩ } ∧
      (∃ t, exec (.bit true) State.reset = .next t) ∧
      ∃ t, exec (.bit true) { State.reset with nco := ⟨dec false 1 0, .bits 0#64⟩, bs := ⟨.bits 1#64, .bits 2#64, .bits 3#64, true⟩ } =
        .next t :=
  ⟨⟨rfl, rfl, rfl, rfl⟩, ⟨_, rfl⟩, ⟨_, rfl⟩⟩

/-- Block D of g1 in BLOCKSYNC and block D of g2 in GROUPDECODE by BIT, and block D of g1 whose last
bit a SYNC brings (raw bit 1 XOR last bit 1): all dispatch. -/
theorem witness_DispatchOnlyOnValidatedBlockD :
    answers (exec (.bit false) (atBoundary .blocksync 3 .zero 0#8 0x337BFDA#26))
      (fun t => decide (t.resp.group = some ⟨0#16, 0#16, 0#16, 0xCDEF#16⟩)) = true ∧
    answers (exec (.bit false) (atBoundary .groupdecode 3 .four 3#8 0x08080DC#26))
      (fun t => decide (t.resp.group = some ⟨0#16, 0#16, 0#16, 0x2020#16⟩)) = true ∧
    answers (exec .sync { atBoundary .blocksync 3 .zero 0#8 0x337BFDA#26 with
        port := ⟨0#16, dec true 3 (-1), dec false 5 (-1)⟩, bs := ⟨dec false 1 0, dec false 1 0, dec false 5 (-1), true⟩ })
      (fun t => decide (t.resp.group = some ⟨0#16, 0#16, 0#16, 0xCDEF#16⟩)) = true := by decide +kernel

theorem witness_CleanGroupIsDispatched :
    let s := { State.reset with dec := ⟨.groupdecode, 0, 0, .four, 3#8⟩ }
    s.dec.state = .groupdecode ∧ s.dec.block = 0 ∧ s.dec.bitcnt = 0 := by decide +kernel

/-- PR-1: g1 from reset meets no false lock in bits 1 to 25. -/
theorem witness_CleanGroupIsAcquired :
    State.reset.dec.state = .bitsync ∧ ∀ n : Nat, 1 ≤ n → n ≤ 25 →
      syn (((wordBits (blockWord 0x1234#16 .A)).take n).foldl shiftWindow State.reset.win) ≠ offsetSyndrome 0 := by
  refine ⟨rfl, fun n _ h => ?_⟩
  have all : ∀ k : Fin 26, syn (((wordBits (blockWord 0x1234#16 .A)).take k.val).foldl shiftWindow State.reset.win) ≠
      offsetSyndrome 0 := by decide +kernel
  exact all ⟨n, by omega⟩

/-- A correctable and an uncorrectable error on block A of g1. -/
theorem witness_CorrectionDependsOnErrorOnly :
    syn good ^^^ 0x3D8#10 = 0#10 ∧ syn (1#26 <<< 25) ≠ 0#10 ∧ syn 1#26 ≠ 0#10 := by decide +kernel

/-- The widest burst at the top and the narrowest at the bottom of the payload. -/
theorem witness_PayloadBurstIsCorrected :
    syn good ^^^ 0x3D8#10 = 0#10 ∧ (0 < 31 ∧ 31 < 2 ^ 5 ∧ 10 ≤ 21 ∧ 31 * 2 ^ 21 < 2 ^ 26) ∧
      (0 < 1 ∧ 1 < 2 ^ 5 ∧ 10 ≤ 10 ∧ 1 * 2 ^ 10 < 2 ^ 26) := by decide +kernel

/-- The lowest check bit, and a burst across the boundary of check bits and payload. -/
theorem witness_CheckBitBurstIsNotCorrected :
    syn good ^^^ 0x3D8#10 = 0#10 ∧ (0 < 1 ∧ 1 < 2 ^ 5 ∧ 1 * 2 ^ 0 % 2 ^ 10 ≠ 0 ∧ 1 * 2 ^ 0 < 2 ^ 26) ∧
      (0 < 31 ∧ 31 < 2 ^ 5 ∧ 31 * 2 ^ 9 % 2 ^ 10 ≠ 0 ∧ 31 * 2 ^ 9 < 2 ^ 26) := by decide +kernel

/-- Correction off; nothing to correct; an error to correct. -/
theorem witness_CheckAnswersTheSyndrome :
    syn good ^^^ offsetSyndrome 0 = 0#10 ∧ syn good ^^^ offsetSyndrome 1 ≠ 0#10 ∧
      syn 0x054D06A#26 ^^^ offsetSyndrome 0 ≠ 0#10 := by decide +kernel

theorem witness_ConstructionMeetsDecoderInvariant : Admissible Config.reference := reference_admissible

/-- The invariant holds while a group is tracked, at the limit, one bit before a boundary; and the
step runs. -/
theorem witness_StepKeepsDecoderInvariant :
    DecoderInv { atBoundary .groupdecode 0 .zero 5#8 0x248D06B#26 with program := [⟨0x0016#16, .bits 0#64, .bits 0#64⟩] } ∧
      ∃ t, step { atBoundary .groupdecode 0 .zero 5#8 0x248D06B#26 with program := [⟨0x0016#16, .bits 0#64, .bits 0#64⟩] } =
        .next t :=
  ⟨by constructor <;> decide +kernel, exists_next (by decide +kernel)⟩

theorem witness_ConstructionMeetsNumericInvariant : Config.reference.domain = .binary64 ∧ Admissible Config.reference :=
  ⟨rfl, reference_admissible⟩

/-- The invariant holds with the frequency at HI, before a PLL. -/
theorem witness_StepKeepsNumericInvariant :
    NumericInv { State.reset with
        nco := ⟨dec false 7 0, dec false 1 (-2)⟩, program := [⟨0x0002#16, .bits 0#64, dec true 2 0⟩] } ∧
      ∃ t, step { State.reset with
        nco := ⟨dec false 7 0, dec false 1 (-2)⟩, program := [⟨0x0002#16, .bits 0#64, dec true 2 0⟩] } = .next t :=
  ⟨⟨rfl, reference_admissible, by decide +kernel, by decide +kernel, by decide +kernel, by decide +kernel,
    by decide +kernel, by decide +kernel, by decide +kernel⟩, exists_next (by decide +kernel)⟩

/-- Binary64, where both clauses apply, and -7 as a finite argument. -/
theorem witness_SincosIsFiniteOnFinite :
    Binary64.ops.isFinite (dec true 7 0) = true ∧ Config.reference.sincos = .reference ∧
      (numOpsOf Config.reference.domain).isFinite (numOpsOf Config.reference.domain).one = true := by decide +kernel

end Sys2Proof.Tests
end

section
/-! The command words that are refused (30_encoding.md R86, R87): what they decode to, and what a step
on one of them does. -/

namespace Sys2Proof

theorem opcodeField_eq_mod (cw : CommandWord) : opcodeField cw = cw.toNat % 16 := by
  simp [opcodeField]

/-- A bit from `lo` up is set exactly when the word is at least `2 ^ lo`. -/
theorem unlessReserved_of_le {cw : CommandWord} {lo : Nat} (h : 2 ^ lo ≤ cw.toNat) (i : Instr) :
    unlessReserved cw lo i = .reservedBits := by
  have hne : cw >>> lo ≠ 0#16 := fun h0 => by
    have hdiv : cw.toNat / 2 ^ lo = 0 := by
      simpa [Nat.shiftRight_eq_div_pow] using congrArg BitVec.toNat h0
    exact absurd hdiv (Nat.div_pos h (Nat.two_pow_pos lo)).ne'
  exact if_neg hne

/-- Format N (30_encoding.md R82): whichever of the five commands it is, bits 15..4 are reserved. -/
theorem decode_formatN {cw : CommandWord} (h₁ : 1 ≤ opcodeField cw) (h₅ : opcodeField cw ≤ 5) :
    ∃ i, decode cw = unlessReserved cw 4 i := by
  interval_cases h : opcodeField cw <;> simp only [decode, h] <;> exact ⟨_, rfl⟩

theorem decode_formatB {cw : CommandWord} (h : opcodeField cw = 6) :
    decode cw = unlessReserved cw 5 (.bit (dataBitField cw)) := by
  simp only [decode, h]

theorem decode_formatK {cw : CommandWord} (h : opcodeField cw = 7) :
    decode cw = unlessReserved cw 8 (.check (offsetField cw) (fecField cw)) := by
  simp only [decode, h]

theorem decode_of_reservedOpcode {cw : CommandWord} (h : opcodeField cw = 0 ∨ 8 ≤ opcodeField cw) :
    decode cw = .reservedOpcode := by
  unfold decode
  split
  case h_8 => rfl
  all_goals omega

/-- The three formats of 30_encoding.md R87, each with a bit set that it does not name. -/
theorem decode_of_reservedBits {cw : CommandWord}
    (h : (1 ≤ opcodeField cw ∧ opcodeField cw ≤ 5 ∧ 2 ^ 4 ≤ cw.toNat) ∨
      (opcodeField cw = 6 ∧ 2 ^ 5 ≤ cw.toNat) ∨ (opcodeField cw = 7 ∧ 2 ^ 8 ≤ cw.toNat)) :
    decode cw = .reservedBits := by
  obtain ⟨h₁, h₅, hle⟩ | ⟨h₆, hle⟩ | ⟨h₇, hle⟩ := h
  · obtain ⟨i, hi⟩ := decode_formatN h₁ h₅
    rw [hi, unlessReserved_of_le hle]
  · rw [decode_formatB h₆, unlessReserved_of_le hle]
  · rw [decode_formatK h₇, unlessReserved_of_le hle]

end Sys2Proof

namespace Sys2Proof.Machine

/-- With no stop recorded and a command presented, the step is what its word decodes to
(40_command_model.md R102). -/
theorem step_of_presented {s : State} {c : Command} {rest : List Command} (hf : s.fault = none)
    (hr : s.refused = none) (hp : s.program = c :: rest) :
    step s = match decode c.cw with
      | .command i => exec i (present s c rest)
      | .reservedOpcode => .refused (.reservedOpcode c.cw)
      | .reservedBits => .refused (.reservedBits c.cw) := by
  have hq : quiescent s = none := (quiescent_eq_none_iff s).2 ⟨hf, hr⟩
  have hfetch : fetch s = some (decode c.cw, present s c rest) := by simp only [fetch, hp]
  unfold step
  rw [hq, hfetch]
  cases decode c.cw <;> rfl

theorem afterStep_of_refused {s : State} {x : Refusal} (h : step s = .refused x) :
    afterStep s = { s with refused := some x } := by
  simp only [afterStep, h, recordOutcome]

/-- Settles O6: a reserved opcode decodes to no command. -/
theorem reservedOpcodeIsRefused : Obligations.ReservedOpcodeIsRefused := by
  intro s c rest hf hr hp hop
  have hd : decode c.cw = .reservedOpcode :=
    decode_of_reservedOpcode (by rwa [opcodeField_eq_mod])
  have hstep : step s = .refused (.reservedOpcode c.cw) := by rw [step_of_presented hf hr hp, hd]
  exact ⟨hstep, afterStep_of_refused hstep⟩

/-- Settles O7: a set reserved bit of any of the three formats leaves no command. -/
theorem reservedBitsAreRefused : Obligations.ReservedBitsAreRefused := by
  intro s c rest hf hr hp hbits
  have hd : decode c.cw = .reservedBits :=
    decode_of_reservedBits (by rwa [opcodeField_eq_mod])
  have hstep : step s = .refused (.reservedBits c.cw) := by rw [step_of_presented hf hr hp, hd]
  exact ⟨hstep, afterStep_of_refused hstep⟩

end Sys2Proof.Machine
end

section
/-! A PLL command whose operands and computed values are all finite (41_carrier_tracker.md R121 to
R126). -/

namespace Sys2Proof.Machine

theorem allFinite_iff (N : NumOps) (vs : List NumVal) :
    allFinite N vs = true ↔ ∀ v ∈ vs, N.isFinite v = true := List.all_eq_true

/-- Both finiteness tests of PLL pass, so it completes (60_exceptions.md R243): the converse of
`execPll_next`. -/
theorem execPll_of_finite {s : State} (hops : allFinite (ops s) [operandRe s, operandIm s] = true)
    (hvals : allFinite (ops s) (pllChecked (pllValues s.cfg s.nco (operandRe s) (operandIm s))) = true) :
    execPll s =
      let v := pllValues s.cfg s.nco (operandRe s) (operandIm s)
      .next (respondY { clearResp s with nco := ⟨v.p1, v.f2⟩ } v.dim) := by
  simp only [execPll, if_pos hops, if_pos hvals]

/-- Settles O14: the values the statement writes out are those of `pllValues`, and both tests pass. -/
theorem pllTracksOneSample : Obligations.PllTracksOneSample := by
  intro s N re im sn cs dre dim err lo hi f1 f2 p1 hre him hvals
  have hops : allFinite (ops s) [operandRe s, operandIm s] = true :=
    (allFinite_iff N [re, im]).2 (by simp [hre, him])
  have hchecked : allFinite (ops s) (pllChecked (pllValues s.cfg s.nco (operandRe s) (operandIm s))) = true :=
    (allFinite_iff N [sn, cs, dre, dim, err, f1, f2, p1]).2 hvals
  exact execPll_of_finite hops hchecked

end Sys2Proof.Machine
end

section
/-! A SYNC command whose operands, slope and product are all finite (42_bitsync_demod.md R152 to
R157). -/

namespace Sys2Proof.Machine

/-- Both finiteness tests of SYNC pass, so it completes (60_exceptions.md R243): the converse of
`execSync_next`. -/
theorem execSync_of_finite {s : State} (hops : allFinite (ops s) [operandMf s, operandSync s] = true)
    (hvals : allFinite (ops s) [(ops s).sub (operandSync s) s.bs.lastSync,
      (ops s).mul s.bs.lastSlope ((ops s).sub (operandSync s) s.bs.lastSync)] = true) :
    execSync s =
      let slope := (ops s).sub (operandSync s) s.bs.lastSync
      let prod := (ops s).mul s.bs.lastSlope slope
      .next (updateHistory (if peakDetected (ops s) slope prod then demodulate (clearResp s) else clearResp s)
        (operandMf s) (operandSync s) slope) := by
  simp only [execSync, if_pos hops, if_pos hvals]

theorem peakDetected_iff (N : NumOps) (slope prod : NumVal) :
    peakDetected N slope prod = true ↔ N.lt slope N.zero = true ∧ N.lt prod N.zero = true := by
  simp only [peakDetected, Bool.and_eq_true]

/-- A detected peak is BITSTEP of the data bit, which neither reads nor writes `lastBit` or the
emitted bit (42_bitsync_demod.md R154 to R156, 43_block_sync.md R171). -/
theorem demodulate_eq_bitStep (s : State) :
    let raw := rawBit (ops s) s.bs.lastData
    let d := raw ^^ s.bs.lastBit
    demodulate s = emitBit { bitStep d s with bs := { s.bs with lastBit := raw } } d := rfl

/-- Settles O27: both finiteness tests pass, a peak is detected, and what it forwards to BITSTEP is
what BIT of the data bit runs. -/
theorem syncAtPeakForwardsDataBit : Obligations.SyncAtPeakForwardsDataBit := by
  intro s N slope prod raw d hmf hsync hslope hprod hslopeNeg hprodNeg
  have hops : allFinite (ops s) [operandMf s, operandSync s] = true :=
    (allFinite_iff N [s.port.op0, s.port.op1]).2 (by simp [hmf, hsync])
  have hvals : allFinite (ops s) [slope, prod] = true :=
    (allFinite_iff N [slope, prod]).2 (by simp [hslope, hprod])
  have hpeak : peakDetected (ops s) slope prod = true :=
    (peakDetected_iff N slope prod).2 ⟨hslopeNeg, hprodNeg⟩
  refine ⟨bitStep d (clearResp s), rfl, ?_⟩
  calc execSync s
    _ = .next (updateHistory (if peakDetected (ops s) slope prod then demodulate (clearResp s) else clearResp s)
          s.port.op0 s.port.op1 slope) := execSync_of_finite hops hvals
    _ = .next (updateHistory (demodulate (clearResp s)) s.port.op0 s.port.op1 slope) := by rw [if_pos hpeak]
    _ = _ := by rw [demodulate_eq_bitStep]; rfl

/-- Settles O28: a completed SYNC ends with the history update, peak or not. -/
theorem syncUpdatesHistory : Obligations.SyncUpdatesHistory := by
  intro s t h
  obtain ⟨-, -, rfl⟩ := execSync_next h
  rw [updateHistory_bs]
  exact ⟨rfl, rfl, rfl⟩

end Sys2Proof.Machine
end

section
/-! BIT on the bit of a check: in BITSYNC every bit is one (43_block_sync.md R180, R181), in BLOCKSYNC
and GROUPDECODE the 26th bit of a block (R184 to R187, R189, R193, R194). -/

namespace Sys2Proof.Machine

/-- The window shift with the bit written as a word, as the obligations write it (43_block_sync.md
R172). -/
theorem shiftWindow_eq (w : Window) (b : Bool) :
    shiftWindow w b = (w <<< 1) ||| (if b = true then 1#26 else 0#26) := by cases b <;> rfl

/-- The offset of the target block with the value of `goff` written out (43_block_sync.md R174). -/
theorem targetOffset_eq (d : Dec) :
    targetOffset d = offsetSyndrome (Fin.ofNat 8 (d.block.val + (if d.goff = .four then 4 else 0))) := by
  unfold targetOffset
  cases d.goff <;> rfl

/-- What the arm of BITSTEP works on within BIT: the window and decode state given, the block data, and
no group dispatched yet. -/
def bitView (s : State) (w : Window) (d : Dec) : Decoder := ⟨w, d, s.data, none⟩

@[simp] theorem bitView_win (s : State) (w : Window) (d : Dec) : (bitView s w d).win = w := rfl
@[simp] theorem bitView_dec (s : State) (w : Window) (d : Dec) : (bitView s w d).dec = d := rfl

/-! The one arm of BITSTEP that runs, by the state on entry (43_block_sync.md R171). -/

theorem decoderStep_of_bitsync (c : Config) (d : Bool) {v : Decoder} (h : v.dec.state = .bitsync) :
    decoderStep c d v = bitsyncArm { v with win := shiftWindow v.win d } := by
  simp only [decoderStep, h]

theorem decoderStep_of_blocksync (c : Config) (d : Bool) {v : Decoder} (h : v.dec.state = .blocksync) :
    decoderStep c d v = countBit (blocksyncBoundary c) { v with win := shiftWindow v.win d } := by
  simp only [decoderStep, h]

theorem decoderStep_of_groupdecode (c : Config) (d : Bool) {v : Decoder} (h : v.dec.state = .groupdecode) :
    decoderStep c d v = countBit (groupdecodeBoundary c) { v with win := shiftWindow v.win d } := by
  simp only [decoderStep, h]

/-- BIT is BITSTEP on a cleared response (43_block_sync.md R170, R171). -/
theorem exec_bit_eq (b : Bool) (s : State) :
    exec (.bit b) s = .next (setDecoder (clearResp s) (decoderStep s.cfg b (decoder (clearResp s)))) := rfl

/-- BIT in BITSYNC is its arm on the shifted window (43_block_sync.md R180). -/
theorem exec_bit_bitsync {s : State} (hst : s.dec.state = .bitsync) (b : Bool) :
    exec (.bit b) s =
      .next (setDecoder (clearResp s) (bitsyncArm (bitView s (shiftWindow s.win b) s.dec))) := by
  rw [exec_bit_eq, decoderStep_of_bitsync _ _ hst]
  rfl

/-- The 26th bit of a block in BLOCKSYNC runs the boundary action with the counter at 0
(43_block_sync.md R183). -/
theorem exec_bit_blocksync_boundary {s : State} (hst : s.dec.state = .blocksync) (hcnt : s.dec.bitcnt = 25)
    (b : Bool) : exec (.bit b) s = .next (setDecoder (clearResp s)
      (blocksyncBoundary s.cfg (bitView s (shiftWindow s.win b) { s.dec with bitcnt := 0 }))) := by
  rw [exec_bit_eq, decoderStep_of_blocksync _ _ hst, countBit_boundary _ hcnt]
  rfl

/-- The 26th bit of a block in GROUPDECODE runs the boundary action with the counter at 0
(43_block_sync.md R183). -/
theorem exec_bit_groupdecode_boundary {s : State} (hst : s.dec.state = .groupdecode) (hcnt : s.dec.bitcnt = 25)
    (b : Bool) : exec (.bit b) s = .next (setDecoder (clearResp s)
      (groupdecodeBoundary s.cfg (bitView s (shiftWindow s.win b) { s.dec with bitcnt := 0 }))) := by
  rw [exec_bit_eq, decoderStep_of_groupdecode _ _ hst, countBit_boundary _ hcnt]
  rfl

/-- A window clean at offset A acquires (43_block_sync.md R181). -/
theorem bitsyncArm_of_clean {v : Decoder} (h : syn v.win = offsetSyndrome 0) : bitsyncArm v = acquire v := by
  unfold bitsyncArm
  rw [checkBlock_noFec]
  exact if_pos (BitVec.xor_eq_zero_iff.2 h)

/-- Any other window changes nothing (43_block_sync.md R180). -/
theorem bitsyncArm_of_not_clean {v : Decoder} (h : syn v.win ≠ offsetSyndrome 0) : bitsyncArm v = v := by
  unfold bitsyncArm
  rw [checkBlock_noFec]
  exact if_neg fun k => h (BitVec.xor_eq_zero_iff.1 k)

/-- Settles O33: the check of BITSYNC either acquires or leaves the shifted window as it is. -/
theorem bitsyncScansEveryBit : Obligations.BitsyncScansEveryBit := by
  intro s b w quiet hst
  have hw : shiftWindow s.win b = w := shiftWindow_eq s.win b
  rw [exec_bit_bitsync hst, hw]
  constructor
  · intro hbad
    rw [bitsyncArm_of_not_clean (v := bitView s w s.dec) hbad]
    rfl
  · intro hclean
    rw [bitsyncArm_of_clean (v := bitView s w s.dec) hclean]
    rfl

/-! A good block, by its index: where STORE puts the payload, and the target after it (43_block_sync.md
R175, R176). -/

theorem advance_store_blockA {v : Decoder} (h : v.dec.block = 0) : advance (store v) =
    { v with data := { v.data with a := payload v.win }, dec := { v.dec with block := 1 } } := by
  simp [advance, store, h, setData]

theorem advance_store_blockB {v : Decoder} (h : v.dec.block = 1) : advance (store v) =
    { v with
      data := { v.data with b := payload v.win }
      dec := { v.dec with block := 2, goff := if groupType (payload v.win) = true then .four else .zero } } := by
  simp [advance, store, h, setData]

theorem advance_store_blockC {v : Decoder} (h : v.dec.block = 2) : advance (store v) =
    { v with data := { v.data with c := payload v.win }, dec := { v.dec with block := 3 } } := by
  simp [advance, store, h, setData]

theorem advance_store_blockD {v : Decoder} (h : v.dec.block = 3) : advance (store v) =
    { v with data := { v.data with d := payload v.win }, dec := { v.dec with block := 0 } } := by
  simp [advance, store, h, setData]

theorem blocksyncBoundary_of_bad {v : Decoder} (c : Config) (h : syn v.win ≠ targetOffset v.dec) :
    blocksyncBoundary c v = demote c v := by
  obtain ⟨-, heq⟩ | ⟨hgood, -, -⟩ | ⟨hgood, -, -⟩ := blocksyncBoundary_cases c v
  · exact heq
  · exact absurd hgood h
  · exact absurd hgood h

theorem blocksyncBoundary_of_good {v : Decoder} (c : Config) (h : syn v.win = targetOffset v.dec) :
    blocksyncBoundary c v = blocksyncGood v := by
  unfold blocksyncBoundary
  rw [checkBlock_noFec]
  exact if_pos (BitVec.xor_eq_zero_iff.2 h)

/-- A good block A, B or C in BLOCKSYNC (43_block_sync.md R185). -/
theorem blocksyncGood_of_not_blockD {v : Decoder} (h : v.dec.block ≠ 3) :
    blocksyncGood v = advance (store v) :=
  if_neg fun k => h ((block_wraps _).1 k)

/-- A good block D ends the acquisition (43_block_sync.md R187). -/
theorem blocksyncGood_of_blockD {v : Decoder} (h : v.dec.block = 3) :
    blocksyncGood v = enter (setErrcnt (dispatch (advance (store v))) 0#8) .groupdecode :=
  if_pos ((block_wraps _).2 h)

/-- The boundary of GROUPDECODE when the block checks clean after correction (43_block_sync.md R189,
R193). -/
theorem groupdecodeBoundary_of_clean {v : Decoder} {r : Syndrome × Window} (c : Config)
    (hr : checkBlock v.win (targetOffset v.dec) true = r) (hclean : r.1 = 0#10) :
    groupdecodeBoundary c v = groupdecodeGood { v with win := r.2 } := by
  subst hr
  exact if_pos hclean

/-- A good block A, B or C in GROUPDECODE (43_block_sync.md R193). -/
theorem groupdecodeGood_of_not_blockD {v : Decoder} (h : v.dec.block ≠ 3) :
    groupdecodeGood v = advance (store v) :=
  if_neg fun k => h ((block_wraps _).1 k)

/-- A good block D completes the group (43_block_sync.md R194). -/
theorem groupdecodeGood_of_blockD {v : Decoder} (h : v.dec.block = 3) :
    groupdecodeGood v = dispatch (setErrcnt (advance (store v)) 0#8) :=
  if_pos ((block_wraps _).2 h)

/-- DEMOTE on the whole state (43_block_sync.md R197). -/
theorem setDecoder_demote (c : Config) (s : State) (v : Decoder) :
    setDecoder s (demote c v) = setDecoder s { v with
      win := if c.demoteClearsWindow = true then 0#26 else v.win
      dec := { v.dec with state := .bitsync } } := by
  simp only [setDecoder, demote_win, demote_dec, demote_data, demote_group]

/-- Settles O35: a bad block demotes; a good one is stored by its index, and a good D dispatches. -/
theorem bitAtBlocksyncBoundary : Obligations.BlocksyncBoundary := by
  intro s b w off p quiet hst hcnt
  have hw : shiftWindow s.win b = w := shiftWindow_eq s.win b
  have hoff : targetOffset { s.dec with bitcnt := 0 } = off := targetOffset_eq _
  rw [exec_bit_blocksync_boundary hst hcnt, hw]
  refine ⟨fun hbad => ?bad, fun hgood hA => ?blockA, fun hgood hB => ?blockB, fun hgood hC => ?blockC,
    fun hgood hD => ?blockD⟩
  case bad =>
    rw [blocksyncBoundary_of_bad (v := bitView s w { s.dec with bitcnt := 0 }) _ (hoff ▸ hbad), setDecoder_demote]
    rfl
  all_goals rw [blocksyncBoundary_of_good (v := bitView s w { s.dec with bitcnt := 0 }) _ (hoff ▸ hgood)]
  case blockA =>
    rw [blocksyncGood_of_not_blockD (by simp [hA]), advance_store_blockA hA]
    rfl
  case blockB =>
    rw [blocksyncGood_of_not_blockD (by simp [hB]), advance_store_blockB hB]
    rfl
  case blockC =>
    rw [blocksyncGood_of_not_blockD (by simp [hC]), advance_store_blockC hC]
    rfl
  case blockD =>
    rw [blocksyncGood_of_blockD hD, advance_store_blockD hD]
    rfl

/-- Settles O36: the corrected window replaces the window, and its payload is stored by the block's
index; D dispatches. -/
theorem groupdecodeGoodBlock : Obligations.GroupdecodeGoodBlock := by
  intro s b r p quiet hst hcnt hclean
  have hr : checkBlock (shiftWindow s.win b) (targetOffset { s.dec with bitcnt := 0 }) true = r := by
    rw [shiftWindow_eq, targetOffset_eq]
  clear_value r
  rw [exec_bit_groupdecode_boundary hst hcnt, groupdecodeBoundary_of_clean
    (v := bitView s (shiftWindow s.win b) { s.dec with bitcnt := 0 }) _ hr hclean]
  refine ⟨fun hA => ?blockA, fun hB => ?blockB, fun hC => ?blockC, fun hD => ?blockD⟩
  case blockA =>
    rw [groupdecodeGood_of_not_blockD (by simp [hA]), advance_store_blockA hA]
    rfl
  case blockB =>
    rw [groupdecodeGood_of_not_blockD (by simp [hB]), advance_store_blockB hB]
    rfl
  case blockC =>
    rw [groupdecodeGood_of_not_blockD (by simp [hC]), advance_store_blockC hC]
    rfl
  case blockD =>
    rw [groupdecodeGood_of_blockD hD, advance_store_blockD hD]
    rfl

end Sys2Proof.Machine
end

section
/-! CHECK: the check of the window on demand (44_syndrome_fec.md R210, R211, R214). -/

namespace Sys2Proof.Machine

/-- CHECK puts the checked window back and answers the check's syndrome, and nothing else
(44_syndrome_fec.md R210, R211). -/
theorem exec_check_of_checkBlock {s : State} {o : Fin 8} {f : Bool} {r : Syndrome × Window}
    (hr : checkBlock s.win (offsetSyndrome o) f = r) :
    exec (.check o f) s = .next { s with
      win := r.2, resp := { y := none, bit := none, syn := some r.1, group := none } } := by
  subst hr
  rfl

/-- Settles O53: the check leaves the window when correction is off or there is nothing to correct, and
is the corrector's result otherwise. -/
theorem checkAnswersTheSyndrome : Obligations.CheckAnswersTheSyndrome := by
  intro s o f s0 answer
  refine ⟨fun hleave => ?uncorrected, fun hf hbad => ?corrected⟩
  case uncorrected =>
    obtain rfl | hclean := hleave
    · exact exec_check_of_checkBlock (checkBlock_noFec s.win (offsetSyndrome o))
    · rw [exec_check_of_checkBlock (checkBlock_clean hclean f), hclean]
  case corrected =>
    subst hf
    exact exec_check_of_checkBlock (checkBlock_fec hbad)

end Sys2Proof.Machine
end

section
/-! The encoder and the decoder against each other (30_encoding.md R82 to R88): the fields of a command
word as numbers, what a word that decodes to a command looks like, and the list of the legal words. -/

namespace Sys2Proof

/-- Settles O1: the twenty rows V-ENC-1 to V-ENC-20, each a fixed word. -/
theorem tabledWordsDecodeAsListed : Obligations.TabledWordsDecodeAsListed := by
  unfold Obligations.TabledWordsDecodeAsListed
  decide

/-- No reserved bit is set exactly when the word lies below the lowest of them. -/
theorem unlessReserved_eq_command_iff {cw : CommandWord} {lo : Nat} {i j : Instr} :
    unlessReserved cw lo i = .command j ↔ cw.toNat < 2 ^ lo ∧ i = j := by
  rcases Nat.lt_or_ge cw.toNat (2 ^ lo) with hlt | hge
  · have hz : cw >>> lo = 0#16 := by
      apply BitVec.eq_of_toNat_eq
      rw [BitVec.toNat_ushiftRight, Nat.shiftRight_eq_div_pow, Nat.div_eq_of_lt hlt]
      rfl
    simp [unlessReserved, hz, hlt]
  · simp [unlessReserved_of_le hge, Nat.not_lt.2 hge]

theorem toNat_dataBitField (cw : CommandWord) : (dataBitField cw).toNat = cw.toNat / 16 % 2 :=
  Nat.toNat_testBit cw.toNat 4

theorem val_offsetField (cw : CommandWord) : (offsetField cw).val = cw.toNat / 16 % 8 := by
  simp [offsetField, Nat.shiftRight_eq_div_pow]

theorem toNat_fecField (cw : CommandWord) : (fecField cw).toNat = cw.toNat / 128 % 2 :=
  Nat.toNat_testBit cw.toNat 7

theorem toNat_encode_bit (b : Bool) : (encode (.bit b)).toNat = 6 + 16 * b.toNat := by
  cases b <;> rfl

theorem toNat_encode_check (o : Fin 8) (f : Bool) :
    (encode (.check o f)).toNat = 7 + 16 * o.val + 128 * f.toNat := by
  revert o f
  decide

theorem dataBitField_encode (b : Bool) : dataBitField (encode (.bit b)) = b := by
  revert b
  decide

theorem offsetField_encode (o : Fin 8) (f : Bool) : offsetField (encode (.check o f)) = o := by
  revert o f
  decide

theorem fecField_encode (o : Fin 8) (f : Bool) : fecField (encode (.check o f)) = f := by
  revert o f
  decide

/-- Settles O2: format N commands are fixed words; the data bit of format B and the two fields of
format K are read back from the bits they were written to. -/
theorem decodeEncodeRoundTrip : Obligations.DecodeEncodeRoundTrip := by
  intro i _
  cases i with
  | reset => decide
  | pll => decide
  | pllend => decide
  | sqr => decide
  | sync => decide
  | bit b =>
    have hw := toNat_encode_bit b
    have hb : b.toNat < 2 := Bool.toNat_lt b
    rw [decode_formatB (by rw [opcodeField_eq_mod]; omega), unlessReserved_eq_command_iff, dataBitField_encode]
    exact ⟨by omega, rfl⟩
  | check o f =>
    have hw := toNat_encode_check o f
    have hf : f.toNat < 2 := Bool.toNat_lt f
    have ho := o.isLt
    rw [decode_formatK (by rw [opcodeField_eq_mod]; omega), unlessReserved_eq_command_iff,
      offsetField_encode, fecField_encode]
    exact ⟨by omega, rfl⟩

/-- The five format N words: the opcode alone. -/
theorem eq_encode_of_formatN {cw : CommandWord} {i j : Instr} {n : Nat} (hop : opcodeField cw = n)
    (hn : (encode i).toNat = n) (h : unlessReserved cw 4 i = .command j) : cw = encode j := by
  obtain ⟨hlt, rfl⟩ := unlessReserved_eq_command_iff.1 h
  rw [opcodeField_eq_mod] at hop
  exact BitVec.eq_of_toNat_eq (by omega)

/-- Settles O3: below its reserved bits a word is its opcode and its fields, which is what the encoder
writes. -/
theorem legalWordIsItsEncoding : Obligations.LegalWordIsItsEncoding := by
  intro cw i h
  unfold decode at h
  split at h <;> rename_i hop
  · exact eq_encode_of_formatN hop rfl h
  · exact eq_encode_of_formatN hop rfl h
  · exact eq_encode_of_formatN hop rfl h
  · exact eq_encode_of_formatN hop rfl h
  · exact eq_encode_of_formatN hop rfl h
  · obtain ⟨hlt, rfl⟩ := unlessReserved_eq_command_iff.1 h
    rw [opcodeField_eq_mod] at hop
    have hw := toNat_encode_bit (dataBitField cw)
    rw [toNat_dataBitField] at hw
    exact BitVec.eq_of_toNat_eq (by omega)
  · obtain ⟨hlt, rfl⟩ := unlessReserved_eq_command_iff.1 h
    rw [opcodeField_eq_mod] at hop
    have hw := toNat_encode_check (offsetField cw) (fecField cw)
    rw [val_offsetField, toNat_fecField] at hw
    exact BitVec.eq_of_toNat_eq (by omega)
  · cases h

/-- Every command, one for each value of its fields (30_encoding.md R82 to R84). -/
def allCommands : List Instr :=
  [.reset, .pll, .pllend, .sqr, .sync] ++ [false, true].map Instr.bit ++
    (List.finRange 8).flatMap fun o => [.check o false, .check o true]

theorem mem_allCommands (i : Instr) : i ∈ allCommands := by
  cases i with
  | reset => decide
  | pll => decide
  | pllend => decide
  | sqr => decide
  | sync => decide
  | bit b => revert b; decide
  | check o f => revert o f; decide

theorem wf_of_instr (i : Instr) : i.wf = true := by
  cases i with
  | reset => rfl
  | pll => rfl
  | pllend => rfl
  | sqr => rfl
  | sync => rfl
  | bit b => revert b; decide
  | check o f => revert o f; decide

/-- Settles O4: the words of the 23 commands, each of which is legal, and no other word is. -/
theorem exactlyTwentyThreeLegalWords : Obligations.ExactlyTwentyThreeLegalWords := by
  refine ⟨allCommands.map encode, by decide, by decide, fun cw => ?_⟩
  constructor
  · intro hmem
    obtain ⟨i, -, rfl⟩ := List.mem_map.1 hmem
    exact ⟨i, decodeEncodeRoundTrip i (wf_of_instr i)⟩
  · rintro ⟨i, hi⟩
    rw [legalWordIsItsEncoding cw i hi]
    exact List.mem_map_of_mem (mem_allCommands i)

end Sys2Proof
end

section
/-! What the commands keep and what the block/group state machine sees of them: no command writes the
bookkeeping (10_state.md R35), and BITSTEP runs for BIT and for a SYNC that emits a bit only
(43_block_sync.md R170, 42_bitsync_demod.md R156). -/

namespace Sys2Proof.Machine

/-- The data bit a SYNC would emit: the raw bit of the previous sample XOR the last raw bit
(42_bitsync_demod.md R154, R155). -/
def dataBit (s : State) : Bool := rawBit (ops s) s.bs.lastData ^^ s.bs.lastBit

/-- The command brings bit `d` to the state machine: BIT its own, SYNC the data bit it emits. -/
def BringsBit (i : Instr) (s t : State) (d : Bool) : Prop :=
  (i = .bit d ∧ t.resp.bit = none) ∨ (i = .sync ∧ t.resp.bit = some d ∧ d = dataBit s)

/-- The slope a SYNC computes (42_bitsync_demod.md R152). -/
def syncSlope (s : State) : NumVal := (ops s).sub (operandSync s) s.bs.lastSync

/-- The product of the last slope and the present one (42_bitsync_demod.md R152). -/
def syncProd (s : State) : NumVal := (ops s).mul s.bs.lastSlope (syncSlope s)

/-- A completed SYNC detected no peak and changed the history only, or it detected one and its data bit
went to the state machine. -/
theorem execSync_cases {s t : State} (h : execSync s = .next t) :
    (peakDetected (ops s) (syncSlope s) (syncProd s) = false ∧
        t = updateHistory (clearResp s) (operandMf s) (operandSync s) (syncSlope s)) ∨
      (peakDetected (ops s) (syncSlope s) (syncProd s) = true ∧
        t = updateHistory (demodulate (clearResp s)) (operandMf s) (operandSync s) (syncSlope s)) := by
  obtain ⟨-, -, rfl⟩ := execSync_next h
  split
  case isTrue hp => exact .inr ⟨hp, rfl⟩
  case isFalse hp => exact .inl ⟨Bool.eq_false_of_not_eq_true hp, rfl⟩

/-- The configuration and the recorded stops of a completed command are those before it. -/
theorem exec_bookkeeping {i : Instr} {s t : State} (h : exec i s = .next t) :
    t.cfg = s.cfg ∧ t.fault = s.fault ∧ t.refused = s.refused := by
  cases i with
  | reset => cases h; exact ⟨rfl, rfl, rfl⟩
  | pll => obtain ⟨-, -, rfl⟩ := execPll_next h; exact ⟨rfl, rfl, rfl⟩
  | pllend => cases h; exact ⟨rfl, rfl, rfl⟩
  | sqr => obtain ⟨-, -, rfl⟩ := execSqr_next h; exact ⟨rfl, rfl, rfl⟩
  | sync =>
    obtain ⟨-, rfl⟩ | ⟨-, rfl⟩ := execSync_cases h
    · exact ⟨rfl, rfl, rfl⟩
    · exact ⟨rfl, rfl, rfl⟩
  | bit b => cases h; exact ⟨rfl, rfl, rfl⟩
  | check o f => cases h; exact ⟨rfl, rfl, rfl⟩

/-- What a completed command does to the fields of the state machine: RESET writes their reset values,
BITSTEP runs on the bit the command brings, or the decode state and the block data stay and no group is
dispatched. -/
theorem exec_decoder_cases {i : Instr} {s t : State} (h : exec i s = .next t) :
    (i = .reset ∧ decoder t = ⟨0#26, ⟨.bitsync, 0, 0, .zero, 0#8⟩, ⟨0#16, 0#16, 0#16, 0#16⟩, none⟩) ∨
      (∃ d, BringsBit i s t d ∧ decoder t = decoderStep s.cfg d (decoder (clearResp s))) ∨
      (t.dec = s.dec ∧ t.data = s.data ∧ t.resp.group = none) := by
  cases i with
  | reset => cases h; exact .inl ⟨rfl, rfl⟩
  | pll => obtain ⟨-, -, rfl⟩ := execPll_next h; exact .inr (.inr ⟨rfl, rfl, rfl⟩)
  | pllend => cases h; exact .inr (.inr ⟨rfl, rfl, rfl⟩)
  | sqr => obtain ⟨-, -, rfl⟩ := execSqr_next h; exact .inr (.inr ⟨rfl, rfl, rfl⟩)
  | sync =>
    obtain ⟨-, rfl⟩ | ⟨-, rfl⟩ := execSync_cases h
    · exact .inr (.inr ⟨rfl, rfl, rfl⟩)
    · exact .inr (.inl ⟨dataBit s, .inr ⟨rfl, rfl, rfl⟩, rfl⟩)
  | bit b => cases h; exact .inr (.inl ⟨b, .inl ⟨rfl, rfl⟩, rfl⟩)
  | check o f => cases h; exact .inr (.inr ⟨rfl, rfl, rfl⟩)

/-- Settles O9: presenting a command keeps the bookkeeping, and so does every command. -/
theorem stepNeverWritesConfiguration : Obligations.StepNeverWritesConfiguration := by
  intro s t h
  obtain ⟨-, ⟨-, rfl⟩ | ⟨c, rest, i, -, -, he⟩⟩ := step_next h
  · exact ⟨rfl, rfl, rfl⟩
  · exact exec_bookkeeping (s := present s c rest) he

end Sys2Proof.Machine
end

section
/-! The decoder invariant (10_state.md R38 item 5, 43_block_sync.md R181 to R195): what meets it, state by
state, and that every transition of the state machine keeps it. -/

namespace Sys2Proof.Machine

theorem decoderInv_of_bitsync {s : State} (hlim : s.cfg.blockErrorLimit ≤ 254)
    (herr : s.dec.errcnt.toNat ≤ s.cfg.blockErrorLimit + 1) (hst : s.dec.state = .bitsync) : DecoderInv s where
  limit := hlim
  errcnt := herr
  tracking := by simp [hst]
  notBlockA := by simp [hst]
  goffStart := by simp [hst]
  goffAcquiring := by simp [hst]
  goffTracking := by simp [hst]

theorem decoderInv_of_blocksync {s : State} (hlim : s.cfg.blockErrorLimit ≤ 254)
    (herr : s.dec.errcnt.toNat ≤ s.cfg.blockErrorLimit + 1) (hst : s.dec.state = .blocksync)
    (hblk : s.dec.block ≠ 0)
    (hgoff : s.dec.goff = if s.dec.block = 1 then .zero else goffOf s.data) : DecoderInv s where
  limit := hlim
  errcnt := herr
  tracking := by simp [hst]
  notBlockA := fun _ => hblk
  goffStart := fun _ h => by rw [hgoff, if_pos h]
  goffAcquiring := fun _ h => by rw [hgoff, if_neg h]
  goffTracking := by simp [hst]

/-- In GROUPDECODE, and in GROUPRESYNC at a block other than A. -/
theorem decoderInv_of_tracking {s : State} (hlim : s.cfg.blockErrorLimit ≤ 254)
    (herr : s.dec.errcnt.toNat ≤ s.cfg.blockErrorLimit)
    (hst : s.dec.state = .groupdecode ∨ (s.dec.state = .groupresync ∧ s.dec.block ≠ 0))
    (hgoff : s.dec.goff = goffOf s.data) : DecoderInv s where
  limit := hlim
  errcnt := by omega
  tracking := fun _ => herr
  notBlockA := by
    obtain hgd | ⟨-, hblk⟩ := hst
    · simp [hgd]
    · exact fun _ => hblk
  goffStart := by obtain hgd | ⟨hgr, -⟩ := hst <;> simp [*]
  goffAcquiring := by obtain hgd | ⟨hgr, -⟩ := hst <;> simp [*]
  goffTracking := fun _ => hgoff

/-- The invariant reads neither the window nor the bit count nor the dispatched group. -/
theorem DecoderInv.congr {s t : State} (h : DecoderInv s) (hcfg : t.cfg = s.cfg)
    (hdec : t.dec = { s.dec with bitcnt := t.dec.bitcnt }) (hdata : t.data = s.data) : DecoderInv t := by
  have hst : t.dec.state = s.dec.state := by rw [hdec]
  have hblk : t.dec.block = s.dec.block := by rw [hdec]
  have hgoff : t.dec.goff = s.dec.goff := by rw [hdec]
  have herr : t.dec.errcnt = s.dec.errcnt := by rw [hdec]
  obtain ⟨h1, h2, h3, h4, h5, h6, h7⟩ := h
  constructor <;> simpa only [hcfg, hst, hblk, hgoff, herr, hdata]

/-- The advance leaves block D for block A, and any other block for one that is not A. -/
theorem block_succ_ne_zero {k : Fin 4} (h : k ≠ 3) : k + 1 ≠ 0 := fun h0 => h ((block_wraps k).1 h0)

/-- After STORE the offset selector is the one the stored block B asks for, if it was before or the
target is block B (43_block_sync.md R175). -/
theorem store_goff {v : Decoder} (h : v.dec.block = 1 ∨ v.dec.goff = goffOf v.data) :
    (store v).dec.goff = goffOf (store v).data := by
  have hb : (store v).data.b = if 1 = v.dec.block then payload v.win else v.data.b :=
    dataAt_setData v.data 1 v.dec.block (payload v.win)
  unfold goffOf
  rw [hb, store_dec]
  obtain hB | hgoff := h
  · rw [if_pos hB.symm]
    exact if_pos hB
  · by_cases hB : v.dec.block = 1
    · rw [if_pos hB.symm]
      exact if_pos hB
    · rw [if_neg (Ne.symm hB)]
      exact (if_neg hB).trans hgoff

theorem decoderStep_of_groupresync (c : Config) (d : Bool) {v : Decoder} (h : v.dec.state = .groupresync) :
    decoderStep c d v = countBit groupresyncBoundary { v with win := shiftWindow v.win d } := by
  simp only [decoderStep, h]

section
variable {s : State} {v : Decoder}

theorem bitsyncArm_keeps_inv (h : DecoderInv (setDecoder s v)) :
    DecoderInv (setDecoder s (bitsyncArm v)) := by
  by_cases hclean : syn v.win = offsetSyndrome 0
  · rw [bitsyncArm_of_clean hclean]
    exact decoderInv_of_blocksync h.limit h.errcnt rfl (show (1 : Fin 4) ≠ 0 by decide) rfl
  · rwa [bitsyncArm_of_not_clean hclean]

theorem blocksyncBoundary_keeps_inv (h : DecoderInv (setDecoder s v)) (hst : v.dec.state = .blocksync) :
    DecoderInv (setDecoder s (blocksyncBoundary s.cfg v)) := by
  have hgoff : v.dec.block = 1 ∨ v.dec.goff = goffOf v.data :=
    (em (v.dec.block = 1)).imp id fun hb => h.goffAcquiring hst hb
  have hblk : v.dec.block ≠ 0 := h.notBlockA (.inl hst)
  obtain ⟨-, heq⟩ | ⟨-, hnotD, heq⟩ | ⟨-, hD, heq⟩ := blocksyncBoundary_cases s.cfg v
  · rw [heq]
    exact decoderInv_of_bitsync h.limit (by simpa using h.errcnt) (by simp)
  · rw [heq]
    have hnext : ∀ k : Fin 4, k ≠ 0 → k ≠ 3 → k + 1 ≠ 0 ∧ k + 1 ≠ 1 := by decide
    obtain ⟨hne0, hne1⟩ := hnext _ hblk hnotD
    exact decoderInv_of_blocksync h.limit (by simpa using h.errcnt) (by simpa using hst) (by simpa using hne0)
      ((store_goff hgoff).trans (if_neg hne1).symm)
  · rw [heq]
    exact decoderInv_of_tracking h.limit (Nat.zero_le _) (.inl rfl) (store_goff hgoff)

theorem groupdecodeBad_keeps_inv (h : DecoderInv (setDecoder s v)) (hst : v.dec.state = .groupdecode) :
    DecoderInv (setDecoder s (groupdecodeBad s.cfg v)) := by
  have hlim : s.cfg.blockErrorLimit ≤ 254 := h.limit
  have herr : v.dec.errcnt.toNat ≤ s.cfg.blockErrorLimit := h.tracking (.inl hst)
  have hgoff : v.dec.goff = goffOf v.data := h.goffTracking (.inl hst)
  have hcount : (v.dec.errcnt + 1#8).toNat = v.dec.errcnt.toNat + 1 := by
    rw [BitVec.toNat_add]
    exact Nat.mod_eq_of_lt (by simp; omega)
  obtain ⟨-, heq⟩ | ⟨hle, -, heq⟩ | ⟨hle, hnotD, heq⟩ := groupdecodeBad_cases s.cfg v
  · rw [heq]
    refine decoderInv_of_bitsync h.limit ?_ (by simp)
    simp only [setDecoder_dec, demote_dec, setErrcnt_dec, setDecoder_cfg, hcount]
    omega
  · rw [heq]
    exact decoderInv_of_tracking h.limit hle (.inl hst) hgoff
  · rw [heq]
    exact decoderInv_of_tracking h.limit hle (.inr ⟨rfl, block_succ_ne_zero hnotD⟩) hgoff

theorem groupdecodeGood_keeps_inv (h : DecoderInv (setDecoder s v)) (hst : v.dec.state = .groupdecode) :
    DecoderInv (setDecoder s (groupdecodeGood v)) := by
  have hgoff : v.dec.goff = goffOf v.data := h.goffTracking (.inl hst)
  obtain ⟨-, heq⟩ | ⟨-, heq⟩ := groupdecodeGood_cases v
  · rw [heq]
    exact decoderInv_of_tracking h.limit (h.tracking (.inl hst)) (.inl hst) (store_goff (.inr hgoff))
  · rw [heq]
    exact decoderInv_of_tracking h.limit (Nat.zero_le _) (.inl hst) (store_goff (.inr hgoff))

theorem groupdecodeBoundary_keeps_inv (h : DecoderInv (setDecoder s v)) (hst : v.dec.state = .groupdecode) :
    DecoderInv (setDecoder s (groupdecodeBoundary s.cfg v)) := by
  have hu : DecoderInv (setDecoder s { v with win := (checkBlock v.win (targetOffset v.dec) true).2 }) :=
    h.congr rfl rfl rfl
  simp only [groupdecodeBoundary]
  split
  · exact groupdecodeGood_keeps_inv hu hst
  · exact groupdecodeBad_keeps_inv hu hst

theorem groupresyncBoundary_keeps_inv (h : DecoderInv (setDecoder s v)) (hst : v.dec.state = .groupresync) :
    DecoderInv (setDecoder s (groupresyncBoundary v)) := by
  have hgoff : v.dec.goff = goffOf v.data := h.goffTracking (.inr hst)
  obtain ⟨hnotD, heq⟩ | ⟨-, heq⟩ := groupresyncBoundary_cases v
  · rw [heq]
    exact decoderInv_of_tracking h.limit (h.tracking (.inr hst)) (.inr ⟨hst, block_succ_ne_zero hnotD⟩) hgoff
  · rw [heq]
    exact decoderInv_of_tracking h.limit (h.tracking (.inr hst)) (.inl rfl) hgoff

/-- Counting a bit keeps the invariant if the boundary action does, which runs in the same decode
state. -/
theorem countBit_keeps_inv {f : Decoder → Decoder} (h : DecoderInv (setDecoder s v))
    (hf : ∀ u : Decoder, DecoderInv (setDecoder s u) → u.dec.state = v.dec.state →
      DecoderInv (setDecoder s (f u))) :
    DecoderInv (setDecoder s (countBit f v)) := by
  obtain ⟨_, heq⟩ | ⟨-, heq⟩ := countBit_cases f v
  · rw [heq]
    exact h.congr rfl rfl rfl
  · rw [heq]
    exact hf _ (h.congr rfl rfl rfl) rfl

theorem decoderStep_keeps_inv (d : Bool) (h : DecoderInv (setDecoder s v)) :
    DecoderInv (setDecoder s (decoderStep s.cfg d v)) := by
  have hu : DecoderInv (setDecoder s { v with win := shiftWindow v.win d }) := h.congr rfl rfl rfl
  cases hst : v.dec.state with
  | bitsync =>
    rw [decoderStep_of_bitsync _ _ hst]
    exact bitsyncArm_keeps_inv hu
  | blocksync =>
    rw [decoderStep_of_blocksync _ _ hst]
    exact countBit_keeps_inv hu fun u h hs => blocksyncBoundary_keeps_inv h (hs.trans hst)
  | groupdecode =>
    rw [decoderStep_of_groupdecode _ _ hst]
    exact countBit_keeps_inv hu fun u h hs => groupdecodeBoundary_keeps_inv h (hs.trans hst)
  | groupresync =>
    rw [decoderStep_of_groupresync _ _ hst]
    exact countBit_keeps_inv hu fun u h hs => groupresyncBoundary_keeps_inv h (hs.trans hst)

end

theorem exec_keeps_decoderInv {i : Instr} {s t : State} (h : DecoderInv s) (he : exec i s = .next t) :
    DecoderInv t := by
  obtain ⟨hcfg, -, -⟩ := exec_bookkeeping he
  obtain ⟨-, hdec⟩ | ⟨d, -, hdec⟩ | ⟨hdec, hdata, -⟩ := exec_decoder_cases he
  · have hd : t.dec = ⟨.bitsync, 0, 0, .zero, 0#8⟩ := congrArg Decoder.dec hdec
    exact decoderInv_of_bitsync (hcfg ▸ h.limit) (by simp [hd]) (by simp [hd])
  · have hstep : DecoderInv (setDecoder s (decoderStep s.cfg d (decoder (clearResp s)))) :=
      decoderStep_keeps_inv d (h.congr rfl rfl rfl)
    rw [← hdec] at hstep
    exact hstep.congr hcfg rfl rfl
  · exact h.congr hcfg (by rw [hdec]) hdata

/-- Settles O55: an empty step changes nothing, and every command keeps the invariant. -/
theorem stepKeepsDecoderInvariant : Obligations.StepKeepsDecoderInvariant := by
  intro s t h hstep
  obtain ⟨-, ⟨-, rfl⟩ | ⟨c, rest, i, -, -, he⟩⟩ := step_next hstep
  · exact h
  · exact exec_keeps_decoderInv (h.congr rfl rfl rfl : DecoderInv (present s c rest)) he

/-- An admissible configuration breaks none of the constraints of 60_exceptions.md R245. -/
theorem admissible_iff (c : Config) : Admissible c ↔
    ((numOpsOf c.domain).isFinite c.alpha = true ∧ (numOpsOf c.domain).isFinite c.beta = true ∧
      (numOpsOf c.domain).isFinite c.freqCenter = true ∧ (numOpsOf c.domain).isFinite c.freqRange = true) ∧
    (numOpsOf c.domain).lt c.freqRange (numOpsOf c.domain).zero = false ∧
    ((numOpsOf c.domain).isFinite (loOf c) = true ∧ (numOpsOf c.domain).isFinite (hiOf c) = true) ∧
    c.blockErrorLimit ≤ 254 := by
  unfold Admissible badParam
  dsimp only
  split_ifs <;> simp_all

/-- Settles O54: the core starts in BITSYNC with the error counter at 0. -/
theorem constructionMeetsDecoderInvariant : Obligations.ConstructionMeetsDecoderInvariant := by
  intro c hadm
  obtain ⟨-, -, -, hlim⟩ := (admissible_iff c).1 hadm
  exact decoderInv_of_bitsync hlim (Nat.zero_le _) rfl

end Sys2Proof.Machine
end

section
/-! The step around the commands: what it runs, that a stop is recorded and final (60_exceptions.md R241,
R242), construction (70_reset_and_hazards.md R270), and what refuses a configuration (60_exceptions.md
R245). -/

namespace Sys2Proof.Machine

/-- Settles O5: the word at the head of the program decodes to the command that runs. -/
theorem stepExecutesPresentedCommand : Obligations.StepExecutesPresentedCommand := by
  constructor
  · intro s c rest i hf hr hp hd
    rw [step_of_presented hf hr hp, hd]
    rfl
  · intro s hf hr hp
    have hq : quiescent s = none := (quiescent_eq_none_iff s).2 ⟨hf, hr⟩
    simp only [step, hq, fetch, hp]

theorem afterStep_of_fault {s : State} {f : Fault} (h : step s = .fault f) :
    afterStep s = { s with fault := some f } := by
  simp only [afterStep, h, recordOutcome]

/-- A recorded stop is what every further step answers (40_command_model.md R102). -/
theorem step_of_quiescent {s : State} {o : StepOutcome} (h : quiescent s = some o) : step s = o := by
  simp only [step, h]

/-- Settles O8: the stop is recorded, and a recorded stop is what the next step answers and records
again, whatever is presented. -/
theorem stopIsRecordedAndSticky : Obligations.StopIsRecordedAndSticky := by
  intro s
  constructor
  · intro f _ _ hstep
    refine ⟨afterStep_of_fault hstep, fun p => ?_⟩
    have hagain : step { s with fault := some f, program := p } = .fault f := step_of_quiescent rfl
    exact ⟨hagain, afterStep_of_fault hagain⟩
  · intro x hf _ hstep
    refine ⟨afterStep_of_refused hstep, fun p => ?_⟩
    have hagain : step { s with refused := some x, program := p } = .refused x :=
      step_of_quiescent (by simp only [quiescent, hf])
    exact ⟨hagain, afterStep_of_refused hagain⟩

/-! Which outcomes a command that can stop has (60_exceptions.md R243). -/

theorem execPll_outcomes (s : State) :
    (∃ t, execPll s = .next t) ∨ execPll s = .fault (.nonfiniteOperand .pll) ∨
      execPll s = .fault (.nonfiniteResult .pll) := by
  simp only [execPll]
  split
  · split
    · exact .inl ⟨_, rfl⟩
    · exact .inr (.inr rfl)
  · exact .inr (.inl rfl)

theorem execSqr_outcomes (s : State) :
    (∃ t, execSqr s = .next t) ∨ execSqr s = .fault (.nonfiniteOperand .sqr) ∨
      execSqr s = .fault (.nonfiniteResult .sqr) := by
  simp only [execSqr]
  split
  · split
    · exact .inl ⟨_, rfl⟩
    · exact .inr (.inr rfl)
  · exact .inr (.inl rfl)

theorem execSync_outcomes (s : State) :
    (∃ t, execSync s = .next t) ∨ execSync s = .fault (.nonfiniteOperand .sync) ∨
      execSync s = .fault (.nonfiniteResult .sync) := by
  simp only [execSync]
  split
  · split
    · exact .inl ⟨_, rfl⟩
    · exact .inr (.inr rfl)
  · exact .inr (.inl rfl)

/-- The outcomes of any command: a next state, or one of the two faults of PLL, SQR or SYNC under its own
name. -/
theorem exec_outcomes (i : Instr) (s : State) :
    (∃ t, exec i s = .next t) ∨
      ∃ c, ((i = .pll ∧ c = .pll) ∨ (i = .sqr ∧ c = .sqr) ∨ (i = .sync ∧ c = .sync)) ∧
        (exec i s = .fault (.nonfiniteOperand c) ∨ exec i s = .fault (.nonfiniteResult c)) := by
  cases i with
  | reset => exact .inl ⟨_, rfl⟩
  | pll => exact (execPll_outcomes s).imp id fun h => ⟨.pll, .inl ⟨rfl, rfl⟩, h⟩
  | pllend => exact .inl ⟨_, rfl⟩
  | sqr => exact (execSqr_outcomes s).imp id fun h => ⟨.sqr, .inr (.inl ⟨rfl, rfl⟩), h⟩
  | sync => exact (execSync_outcomes s).imp id fun h => ⟨.sync, .inr (.inr ⟨rfl, rfl⟩), h⟩
  | bit b => exact .inl ⟨_, rfl⟩
  | check o f => exact .inl ⟨_, rfl⟩

/-- Settles O10: the outcomes of a command are a next state and its own two faults. -/
theorem onlyNumericCommandsFault : Obligations.OnlyNumericCommandsFault := by
  intro i s
  obtain ⟨t, hnext⟩ | ⟨c, hcmd, hfault⟩ := exec_outcomes i s
  · simp [hnext]
  · have hown : ∀ f, exec i s = .fault f → f = .nonfiniteOperand c ∨ f = .nonfiniteResult c := fun f hf => by
      obtain h | h := hfault
      · exact .inl (Host.Outcome.fault.inj (hf.symm.trans h))
      · exact .inr (Host.Outcome.fault.inj (hf.symm.trans h))
    refine ⟨fun f hf => ?_, fun x hx => ?_⟩
    · obtain ⟨rfl, rfl⟩ | ⟨rfl, rfl⟩ | ⟨rfl, rfl⟩ := hcmd
      · exact .inl ⟨rfl, hown f hf⟩
      · exact .inr (.inl ⟨rfl, hown f hf⟩)
      · exact .inr (.inr ⟨rfl, hown f hf⟩)
    · obtain h | h := hfault
      · cases hx.symm.trans h
      · cases hx.symm.trans h

/-- Settles O11: RESET writes constants of the configuration, which it keeps. -/
theorem resetReinitializesTheCore : Obligations.ResetReinitializesTheCore :=
  fun s => ⟨reacquire (clearResp s), rfl, rfl, rfl⟩

/-- Settles O12: construction writes the values RESET writes. -/
theorem constructionIsTheResetState : Obligations.ConstructionIsTheResetState :=
  fun _ => ⟨rfl, rfl, rfl, rfl, rfl, rfl⟩

/-- Settles O13: the first broken constraint of the list is the one `badParam` names. -/
theorem refusedConfigurationStepsNothing : Obligations.RefusedConfigurationStepsNothing := by
  intro c N
  refine ⟨?refusedIff, ?recordedName, ?nothingSteps⟩
  case refusedIff =>
    have hadm := admissible_iff c
    rw [← Option.isSome_iff_exists, Option.isSome_iff_ne_none]
    change ¬ Admissible c ↔ _
    rw [hadm]
    simp only [not_and_or, Bool.not_eq_true, Bool.not_eq_false, Nat.not_le, or_assoc]
    rfl
  case recordedName =>
    change (badParam c).map Refusal.badConfig = _
    simp only [badParam, apply_ite (Option.map Refusal.badConfig), Bool.not_eq_true']
    rfl
  case nothingSteps =>
    intro p hp prog
    refine step_of_quiescent ?_
    simp only [quiescent, State.construct, hp, Option.map_some]

end Sys2Proof.Machine
end

section
/-! The outcomes of PLL, PLLEND, SQR and SYNC, and what each leaves unchanged (41_carrier_tracker.md R121,
R132; 42_bitsync_demod.md R150, R152; 60_exceptions.md R243). -/

namespace Sys2Proof.Machine

/-- A finiteness test fails exactly at a value that is not finite. -/
theorem allFinite_eq_false_iff (N : NumOps) (vs : List NumVal) :
    allFinite N vs = false ↔ ∃ v ∈ vs, N.isFinite v = false := by
  simp [allFinite]

/-- Settles O15: the first failing test of PLL decides the fault. -/
theorem pllFaultsOnNonfinite : Obligations.PllFaultsOnNonfinite := by
  intro s N re im sn cs dre dim err lo hi f1 f2 p1
  constructor
  · intro hop
    have hops : allFinite (ops s) [operandRe s, operandIm s] = false :=
      (allFinite_eq_false_iff N [re, im]).2 (by simpa using hop)
    simp only [exec, execPll, hops]
    rfl
  · intro hre him hval
    have hops : allFinite (ops s) [operandRe s, operandIm s] = true :=
      (allFinite_iff N [re, im]).2 (by simp [hre, him])
    have hvals : allFinite (ops s) (pllChecked (pllValues s.cfg s.nco (operandRe s) (operandIm s))) = false :=
      (allFinite_eq_false_iff N [sn, cs, dre, dim, err, f1, f2, p1]).2 (by simpa using hval)
    simp only [exec, execPll, hops, hvals]
    rfl

/-- Settles O20: PLLEND has no test, and `wrap` is the formula the statement writes out. -/
theorem pllendWrapsThePhase : Obligations.PllendWrapsThePhase := by
  intro s N q r
  have hwrap : wrap N s.nco.phase = if N.lt r N.zero = true ∨ N.le N.twoPi r = true then N.zero
      else if N.eq r s.nco.phase = true then s.nco.phase else r := by
    simp only [wrap, Bool.or_eq_true]
    rfl
  rw [← hwrap]
  rfl

/-- Settles O22: PLL writes the NCO and its response, PLLEND the phase. -/
theorem trackerCommandsFrame : Obligations.TrackerCommandsFrame := by
  rintro s t i (rfl | rfl) h
  · obtain ⟨-, -, rfl⟩ := execPll_next h
    exact ⟨rfl, rfl, rfl, rfl, rfl, rfl, rfl, rfl, rfl, rfl, rfl, rfl, by simp⟩
  · cases h
    exact ⟨rfl, rfl, rfl, rfl, rfl, rfl, rfl, rfl, rfl, rfl, rfl, rfl, fun _ => ⟨rfl, rfl⟩⟩

/-- Settles O23: both tests of SQR pass. -/
theorem sqrAnswersTheSquare : Obligations.SqrAnswersTheSquare := by
  intro s q hx hq
  have hop : (ops s).isFinite (operandX s) = true := hx
  have hres : (ops s).isFinite ((ops s).mul (operandX s) (operandX s)) = true := hq
  simp only [exec, execSqr, hop, hres]
  rfl

/-- Settles O24: the first failing test of SQR or SYNC decides the fault. -/
theorem sqrAndSyncFaultOnNonfinite : Obligations.SqrAndSyncFaultOnNonfinite := by
  intro s N slope
  refine ⟨fun hx => ?sqrOperand, fun hx hq => ?sqrResult, fun hop => ?syncOperand,
    fun hmf hsync hval => ?syncResult⟩
  case sqrOperand =>
    have hop : (ops s).isFinite (operandX s) = false := hx
    simp only [exec, execSqr, hop]
    rfl
  case sqrResult =>
    have hop : (ops s).isFinite (operandX s) = true := hx
    have hres : (ops s).isFinite ((ops s).mul (operandX s) (operandX s)) = false := hq
    simp only [exec, execSqr, hop, hres]
    rfl
  case syncOperand =>
    have hops : allFinite (ops s) [operandMf s, operandSync s] = false :=
      (allFinite_eq_false_iff N [s.port.op0, s.port.op1]).2 (by simpa using hop)
    simp only [exec, execSync, hops]
    rfl
  case syncResult =>
    have hops : allFinite (ops s) [operandMf s, operandSync s] = true :=
      (allFinite_iff N [s.port.op0, s.port.op1]).2 (by simp [hmf, hsync])
    have hvals : allFinite (ops s) [syncSlope s, syncProd s] = false :=
      (allFinite_eq_false_iff N [slope, N.mul s.bs.lastSlope slope]).2 (by simpa using hval)
    unfold syncProd syncSlope at hvals
    simp only [exec, execSync, hops, hvals]
    rfl

theorem peakDetected_eq_false_iff (N : NumOps) (slope prod : NumVal) :
    peakDetected N slope prod = false ↔ N.lt slope N.zero = false ∨ N.lt prod N.zero = false := by
  simp only [peakDetected, Bool.and_eq_false_iff]

theorem execSync_of_noPeak {s : State} (hops : allFinite (ops s) [operandMf s, operandSync s] = true)
    (hvals : allFinite (ops s) [syncSlope s, syncProd s] = true)
    (hpeak : peakDetected (ops s) (syncSlope s) (syncProd s) = false) :
    execSync s = .next (updateHistory (clearResp s) (operandMf s) (operandSync s) (syncSlope s)) := by
  calc execSync s
    _ = .next (updateHistory (if peakDetected (ops s) (syncSlope s) (syncProd s) then demodulate (clearResp s)
          else clearResp s) (operandMf s) (operandSync s) (syncSlope s)) := execSync_of_finite hops hvals
    _ = _ := by rw [if_neg (Bool.eq_false_iff.1 hpeak)]

theorem execSync_of_peak {s : State} (hops : allFinite (ops s) [operandMf s, operandSync s] = true)
    (hvals : allFinite (ops s) [syncSlope s, syncProd s] = true)
    (hpeak : peakDetected (ops s) (syncSlope s) (syncProd s) = true) :
    execSync s =
      .next (updateHistory (demodulate (clearResp s)) (operandMf s) (operandSync s) (syncSlope s)) := by
  calc execSync s
    _ = .next (updateHistory (if peakDetected (ops s) (syncSlope s) (syncProd s) then demodulate (clearResp s)
          else clearResp s) (operandMf s) (operandSync s) (syncSlope s)) := execSync_of_finite hops hvals
    _ = _ := by rw [if_pos hpeak]

/-- Settles O26: both finiteness tests pass and no peak is detected. -/
theorem syncWithoutPeakUpdatesHistory : Obligations.SyncWithoutPeakUpdatesHistory := by
  intro s N slope prod hmf hsync hslope hprod hnot
  have hops : allFinite (ops s) [operandMf s, operandSync s] = true :=
    (allFinite_iff N [s.port.op0, s.port.op1]).2 (by simp [hmf, hsync])
  have hvals : allFinite (ops s) [slope, prod] = true :=
    (allFinite_iff N [slope, prod]).2 (by simp [hslope, hprod])
  have hpeak : peakDetected (ops s) slope prod = false := (peakDetected_eq_false_iff N slope prod).2 hnot
  exact execSync_of_noPeak hops hvals hpeak

/-- Settles O32: SQR answers only; SYNC ends with the history update, and a peak, which emits a bit, is
all that reaches the state machine. -/
theorem bitSyncCommandsFrame : Obligations.BitSyncCommandsFrame := by
  intro s t
  refine ⟨fun h => ?sqr, fun h => ?sync⟩
  case sqr =>
    obtain ⟨-, -, rfl⟩ := execSqr_next h
    exact ⟨rfl, rfl, rfl, rfl⟩
  case sync =>
    obtain ⟨-, rfl⟩ | ⟨-, rfl⟩ := execSync_cases h
    · exact ⟨rfl, rfl, rfl, rfl, rfl, rfl, rfl, rfl, fun _ => ⟨rfl, rfl, rfl, rfl, rfl⟩⟩
    · exact ⟨rfl, rfl, rfl, rfl, rfl, rfl, rfl, rfl, fun hbit => absurd hbit (Option.some_ne_none _)⟩

/-- The state with the last raw bit flipped, `data` for the last sample and `p` at the port: the other side
of R155's sign flip, if `data` and `p`'s sample have the opposite signs. -/
def flipCarrier (s : State) (data : NumVal) (p : Command) : State :=
  { s with bs := { s.bs with lastData := data, lastBit := !s.bs.lastBit }, port := p }

/-- A peak under a flipped carrier: the raw bit and the last raw bit are both flipped, so the data bit that
reaches the state machine is the same (42_bitsync_demod.md R155). -/
theorem demodulate_flipCarrier {s : State} {data : NumVal} (p : Command)
    (h : rawBit (ops s) data = !rawBit (ops s) s.bs.lastData) :
    demodulate (flipCarrier s data p) = flipCarrier (demodulate s) data p := by
  have hd : (rawBit (ops s) data ^^ !s.bs.lastBit) = (rawBit (ops s) s.bs.lastData ^^ s.bs.lastBit) := by
    rw [h, Bool.not_xor_not]
  calc demodulate (flipCarrier s data p)
    _ = emitBit { bitStep (rawBit (ops s) data ^^ !s.bs.lastBit) s with
          bs := { s.bs with lastData := data, lastBit := rawBit (ops s) data }, port := p }
          (rawBit (ops s) data ^^ !s.bs.lastBit) := rfl
    _ = flipCarrier (demodulate s) data p := by rw [hd, h]; rfl

/-- Settles O31: the flipped state meets the same tests, and a peak hands on the same data bit. -/
theorem dataBitsIgnoreCarrierSign : Obligations.DataBitsIgnoreCarrierSign := by
  intro s t flippedData flippedMf N hdata _ hfin h
  obtain ⟨hops, hvals, -⟩ := execSync_next h
  have hsync : N.isFinite s.port.op1 = true := (allFinite_iff _ _).1 hops (operandSync s) (by simp)
  have hops' : allFinite N [flippedMf, s.port.op1] = true := (allFinite_iff _ _).2 (by simp [hfin, hsync])
  change execSync (flipCarrier s flippedData { s.port with op0 := flippedMf }) = _
  obtain ⟨hpeak, rfl⟩ | ⟨hpeak, rfl⟩ := execSync_cases h
  · exact execSync_of_noPeak (s := flipCarrier s flippedData { s.port with op0 := flippedMf }) hops' hvals hpeak
  · refine (execSync_of_peak (s := flipCarrier s flippedData { s.port with op0 := flippedMf }) hops' hvals
      hpeak).trans ?_
    exact congrArg (fun u => Host.Outcome.next (updateHistory u flippedMf s.port.op1 _))
      (demodulate_flipCarrier (s := clearResp s) _ hdata)

end Sys2Proof.Machine
end

section
/-! BIT on the bits that store no block: inside a block, at a bad block in GROUPDECODE and in GROUPRESYNC
(43_block_sync.md R183, R190 to R192, R195), and what BIT and CHECK read and leave unchanged (R171). -/

namespace Sys2Proof.Machine

/-- A bit that is not the last of a block moves the counter (43_block_sync.md R183). -/
theorem countBit_within (f : Decoder → Decoder) {v : Decoder} (h : v.dec.bitcnt.val + 1 < 26) :
    countBit f v = { v with dec := { v.dec with bitcnt := ⟨v.dec.bitcnt.val + 1, h⟩ } } := dif_pos h

/-- Outside BITSYNC every bit is counted (43_block_sync.md R183). -/
theorem decoderStep_counts (c : Config) (d : Bool) {v : Decoder} (h : v.dec.state ≠ .bitsync) :
    ∃ f, decoderStep c d v = countBit f { v with win := shiftWindow v.win d } := by
  cases hst : v.dec.state with
  | bitsync => exact absurd hst h
  | blocksync => exact ⟨_, decoderStep_of_blocksync c d hst⟩
  | groupdecode => exact ⟨_, decoderStep_of_groupdecode c d hst⟩
  | groupresync => exact ⟨_, decoderStep_of_groupresync c d hst⟩

/-- Outside BITSYNC a bit that is not the last of a block shifts the window and is counted. -/
theorem exec_bit_within_block {s : State} (hst : s.dec.state ≠ .bitsync) (hcnt : s.dec.bitcnt.val + 1 < 26)
    (b : Bool) : exec (.bit b) s = .next (setDecoder (clearResp s)
      (bitView s (shiftWindow s.win b) { s.dec with bitcnt := ⟨s.dec.bitcnt.val + 1, hcnt⟩ })) := by
  obtain ⟨f, hf⟩ := decoderStep_counts s.cfg b (v := decoder (clearResp s)) hst
  rw [exec_bit_eq, hf, countBit_within f hcnt]
  rfl

/-- Settles O34: no state but BITSYNC does more than count before the 26th bit. -/
theorem bitWithinABlockOnlyCounts : Obligations.BitWithinABlockOnlyCounts := by
  intro s b hst hcnt
  have hlt : s.dec.bitcnt.val + 1 < 26 := by omega
  refine ⟨⟨s.dec.bitcnt.val + 1, hlt⟩, rfl, ?_⟩
  rw [exec_bit_within_block hst hlt, shiftWindow_eq]
  rfl

/-- The boundary of GROUPDECODE when the block stays bad after correction (43_block_sync.md R189,
R190). -/
theorem groupdecodeBoundary_of_bad {v : Decoder} {r : Syndrome × Window} (c : Config)
    (hr : checkBlock v.win (targetOffset v.dec) true = r) (hbad : r.1 ≠ 0#10) :
    groupdecodeBoundary c v = groupdecodeBad c { v with win := r.2 } := by
  subst hr
  exact if_neg hbad

/-- Settles O37: the counter decides the demotion, and the block decides where the machine goes on. -/
theorem groupdecodeBadBlock : Obligations.GroupdecodeBadBlock := by
  intro s b r n quiet hst hcnt hbad
  have hr : checkBlock (shiftWindow s.win b) (targetOffset { s.dec with bitcnt := 0 }) true = r := by
    rw [shiftWindow_eq, targetOffset_eq]
  clear_value r
  rw [exec_bit_groupdecode_boundary hst hcnt, groupdecodeBoundary_of_bad
    (v := bitView s (shiftWindow s.win b) { s.dec with bitcnt := 0 }) _ hr hbad]
  obtain ⟨hgt, heq⟩ | ⟨hle, hD, heq⟩ | ⟨hle, hnotD, heq⟩ :=
    groupdecodeBad_cases s.cfg { bitView s (shiftWindow s.win b) { s.dec with bitcnt := 0 } with win := r.2 }
  · rw [heq, setDecoder_demote]
    exact ⟨fun _ => rfl, fun h => absurd hgt (Nat.not_lt.2 h), fun h => absurd hgt (Nat.not_lt.2 h)⟩
  · rw [heq]
    refine ⟨fun h => absurd hle (Nat.not_le.2 h), fun _ h => absurd hD h, fun _ h => ?_⟩
    simp only [advance, setErrcnt, bitView, h]
    rfl
  · rw [heq]
    exact ⟨fun h => absurd hle (Nat.not_le.2 h), fun _ _ => rfl, fun _ h => absurd h hnotD⟩

/-- The 26th bit of a block in GROUPRESYNC runs the boundary action with the counter at 0
(43_block_sync.md R183). -/
theorem exec_bit_groupresync_boundary {s : State} (hst : s.dec.state = .groupresync) (hcnt : s.dec.bitcnt = 25)
    (b : Bool) : exec (.bit b) s = .next (setDecoder (clearResp s)
      (groupresyncBoundary (bitView s (shiftWindow s.win b) { s.dec with bitcnt := 0 }))) := by
  rw [exec_bit_eq, decoderStep_of_groupresync _ _ hst, countBit_boundary _ hcnt]
  rfl

/-- Settles O38: the block alone decides. -/
theorem groupresyncAtBoundary : Obligations.GroupresyncBoundary := by
  intro s b w quiet hst hcnt
  have hw : shiftWindow s.win b = w := shiftWindow_eq s.win b
  rw [exec_bit_groupresync_boundary hst hcnt, hw]
  obtain ⟨hnotD, heq⟩ | ⟨hD, heq⟩ :=
    groupresyncBoundary_cases (bitView s w { s.dec with bitcnt := 0 })
  · rw [heq]
    exact ⟨fun _ => rfl, fun h => absurd h hnotD⟩
  · rw [heq]
    refine ⟨fun h => absurd hD h, fun h => ?_⟩
    simp only [enter, advance, bitView, h]
    rfl

/-- Settles O39: BITSTEP works on the fields of the decoder only, and a check without correction leaves
the window. -/
theorem decoderCommandsFrame : Obligations.DecoderCommandsFrame := by
  intro s t
  refine ⟨fun b h => ?bit, fun o f h => ?check⟩
  case bit =>
    cases h
    exact ⟨rfl, rfl, rfl, rfl, rfl, rfl, rfl, rfl, rfl, rfl⟩
  case check =>
    cases h
    refine ⟨rfl, fun hf => ?_, rfl, rfl, rfl⟩
    subst hf
    exact congrArg Prod.snd (checkBlock_noFec s.win (offsetSyndrome o))

/-- Settles O40: BIT is a function of the decoder's fields and the configuration. -/
theorem bitReadsOnlyDecoderState : Obligations.BitReadsOnlyDecoderState := by
  rintro s s' t t' b ⟨hwin, hdec, hdata, hcfg⟩ h h'
  have hview : decoder (clearResp s) = decoder (clearResp s') := by
    simp only [decoder, clearResp_win, clearResp_dec, clearResp_data, clearResp_resp, hwin, hdec, hdata]
  rw [exec_bit_eq] at h h'
  rw [hview, hcfg] at h
  cases h
  cases h'
  exact ⟨⟨rfl, rfl, rfl, hcfg⟩, rfl⟩

/-! When a group is dispatched (43_block_sync.md R196). -/

/-- In BLOCKSYNC only a good block D dispatches, the block data with D's payload (43_block_sync.md
R187). -/
theorem blocksyncBoundary_dispatches {c : Config} {v : Decoder} {g : Group}
    (h : (blocksyncBoundary c v).group = some g) (hv : v.group = none) :
    v.dec.block = 3 ∧ syn v.win = targetOffset v.dec ∧ g = { v.data with d := payload v.win } ∧
      blocksyncBoundary c v = ⟨v.win, ⟨.groupdecode, v.dec.bitcnt, 0, v.dec.goff, 0#8⟩, g, some g⟩ := by
  obtain ⟨-, heq⟩ | ⟨-, -, heq⟩ | ⟨hgood, hD, heq⟩ := blocksyncBoundary_cases c v
  · rw [heq, demote_group, hv] at h
    cases h
  · rw [heq, advance_group, store_group, hv] at h
    cases h
  · rw [advance_store_blockD hD] at heq
    rw [heq] at h ⊢
    cases h
    exact ⟨hD, hgood, rfl, rfl⟩

/-- In GROUPDECODE only a good block D dispatches, the block data with the payload of the checked window
(43_block_sync.md R194). -/
theorem groupdecodeBoundary_dispatches {c : Config} {v : Decoder} {g : Group} {r : Syndrome × Window}
    (h : (groupdecodeBoundary c v).group = some g) (hv : v.group = none) (hst : v.dec.state = .groupdecode)
    (hr : checkBlock v.win (targetOffset v.dec) true = r) :
    v.dec.block = 3 ∧ r.1 = 0#10 ∧ g = { v.data with d := payload r.2 } ∧
      groupdecodeBoundary c v = ⟨r.2, ⟨.groupdecode, v.dec.bitcnt, 0, v.dec.goff, 0#8⟩, g, some g⟩ := by
  by_cases hclean : r.1 = 0#10
  · rw [groupdecodeBoundary_of_clean c hr hclean] at h ⊢
    obtain ⟨-, heq⟩ | ⟨hD, heq⟩ := groupdecodeGood_cases { v with win := r.2 }
    · rw [heq, advance_group, store_group, hv] at h
      cases h
    · rw [advance_store_blockD hD] at heq
      rw [heq] at h ⊢
      cases h
      refine ⟨hD, hclean, rfl, ?_⟩
      rw [← hst]
      rfl
  · rw [groupdecodeBoundary_of_bad c hr hclean] at h
    obtain ⟨-, heq⟩ | ⟨-, -, heq⟩ | ⟨-, -, heq⟩ := groupdecodeBad_cases c { v with win := r.2 }
    · rw [heq, demote_group] at h
      simp [hv] at h
    · rw [heq] at h
      simp [hv] at h
    · rw [heq] at h
      simp [hv] at h

/-- Counting a bit dispatches only if the boundary action does, at the 26th bit. -/
theorem countBit_dispatches {f : Decoder → Decoder} {v : Decoder} {g : Group}
    (h : (countBit f v).group = some g) (hv : v.group = none) :
    v.dec.bitcnt = 25 ∧ countBit f v = f { v with dec := { v.dec with bitcnt := 0 } } := by
  obtain ⟨hlt, heq⟩ | hb := countBit_cases f v
  · rw [heq] at h
    exact absurd (hv.symm.trans h) (Option.some_ne_none g).symm
  · exact hb

/-- BITSTEP dispatches only at the last bit of a block D that checks clean, in BLOCKSYNC without and in
GROUPDECODE with correction (43_block_sync.md R196). -/
theorem decoderStep_dispatches {c : Config} {b : Bool} {v : Decoder} {g : Group} (hv : v.group = none)
    (h : (decoderStep c b v).group = some g) :
    let r := checkBlock (shiftWindow v.win b) (targetOffset v.dec) (decide (v.dec.state = .groupdecode))
    (v.dec.state = .blocksync ∨ v.dec.state = .groupdecode) ∧ v.dec.block = 3 ∧ v.dec.bitcnt = 25 ∧
      r.1 = 0#10 ∧ g = { v.data with d := payload r.2 } ∧
      decoderStep c b v = ⟨r.2, ⟨.groupdecode, 0, 0, v.dec.goff, 0#8⟩, g, some g⟩ := by
  intro r
  have hr : checkBlock (shiftWindow v.win b) (targetOffset v.dec) (decide (v.dec.state = .groupdecode)) = r := rfl
  clear_value r
  cases hst : v.dec.state with
  | bitsync =>
    rw [decoderStep_of_bitsync _ _ hst] at h
    by_cases hclean : syn (shiftWindow v.win b) = offsetSyndrome 0
    · rw [bitsyncArm_of_clean (v := { v with win := shiftWindow v.win b }) hclean, acquire_group, hv] at h
      cases h
    · rw [bitsyncArm_of_not_clean (v := { v with win := shiftWindow v.win b }) hclean, hv] at h
      cases h
  | blocksync =>
    rw [decoderStep_of_blocksync _ _ hst] at h ⊢
    obtain ⟨hcnt, heq⟩ := countBit_dispatches h hv
    rw [heq] at h ⊢
    obtain ⟨hD, hgood, hg, hnext⟩ := blocksyncBoundary_dispatches h hv
    rw [hst, decide_eq_false (by decide), checkBlock_noFec] at hr
    subst hr
    exact ⟨.inl rfl, hD, hcnt, BitVec.xor_eq_zero_iff.2 hgood, hg, hnext⟩
  | groupdecode =>
    rw [decoderStep_of_groupdecode _ _ hst] at h ⊢
    obtain ⟨hcnt, heq⟩ := countBit_dispatches h hv
    rw [heq] at h ⊢
    rw [hst, decide_eq_true rfl] at hr
    obtain ⟨hD, hclean, hg, hnext⟩ := groupdecodeBoundary_dispatches h hv hst hr
    exact ⟨.inr rfl, hD, hcnt, hclean, hg, hnext⟩
  | groupresync =>
    rw [decoderStep_of_groupresync _ _ hst] at h
    obtain ⟨-, heq⟩ := countBit_dispatches h hv
    rw [heq] at h
    obtain ⟨-, heq⟩ | ⟨-, heq⟩ := groupresyncBoundary_cases
      { v with win := shiftWindow v.win b, dec := { v.dec with bitcnt := 0 } }
    · rw [heq] at h
      simp [hv] at h
    · rw [heq] at h
      simp [hv] at h

/-- Settles O41: a group is dispatched by BITSTEP on the bit the command brings, and by nothing else. -/
theorem dispatchOnlyOnValidatedBlockD : Obligations.DispatchOnlyOnValidatedBlockD := by
  intro i s t g he hg
  obtain ⟨-, hdec⟩ | ⟨b, hbrings, hdec⟩ | ⟨-, -, hnone⟩ := exec_decoder_cases he
  · have hnone : t.resp.group = none := congrArg Decoder.group hdec
    exact absurd (hnone.symm.trans hg) (Option.some_ne_none g).symm
  · have hgroup : (decoderStep s.cfg b (decoder (clearResp s))).group = some g := hdec ▸ hg
    obtain ⟨hst, hD, hcnt, hclean, hg', hnext⟩ := decoderStep_dispatches rfl hgroup
    rw [hnext] at hdec
    have hwin := congrArg Decoder.win hdec
    have hdata : t.data = g := congrArg Decoder.data hdec
    have hd : t.dec = ⟨.groupdecode, 0, 0, s.dec.goff, 0#8⟩ := congrArg Decoder.dec hdec
    have hbit : i = .bit b ∨ (i = .sync ∧ t.resp.bit = some b ∧ b = dataBit s) := hbrings.imp And.left id
    exact ⟨hst, hD, hcnt, ⟨b, hbit, hclean, hg', hwin⟩, hdata, by rw [hd], by rw [hd], by rw [hd]⟩
  · exact absurd (hnone.symm.trans hg) (Option.some_ne_none g).symm

end Sys2Proof.Machine
end

section
/-! The syndrome as a linear map (44_syndrome_fec.md R212, R220), the corrector's independence of the window
it corrects (R215, R218), and correctly formed blocks (R213, 30_encoding.md R92). -/

namespace Sys2Proof.Machine

/-! ### Linearity -/

/-- The parity loop adds its start value, and is linear in the block. -/
theorem synLoop_xor (rows : List Syndrome) (s t : Syndrome) (a b : BitVec 16) :
    synLoop rows (s ^^^ t) (a ^^^ b) = synLoop rows s a ^^^ synLoop rows t b := by
  induction rows generalizing s t a b with
  | nil => rfl
  | cons row rows ih =>
    rw [synLoop_cons, synLoop_cons, synLoop_cons, BitVec.shiftLeft_xor_distrib, ← ih, BitVec.getLsbD_xor]
    congr 1
    cases a.getLsbD 15 with
    | false =>
      cases b.getLsbD 15 with
      | false => rfl
      | true => exact BitVec.xor_assoc s t row
    | true =>
      cases b.getLsbD 15 with
      | false =>
        show s ^^^ t ^^^ row = s ^^^ row ^^^ t
        ac_rfl
      | true =>
        calc s ^^^ t
          _ = s ^^^ t ^^^ (row ^^^ row) := by rw [BitVec.xor_self, BitVec.xor_zero]
          _ = s ^^^ row ^^^ (t ^^^ row) := by ac_rfl

theorem syn_xor (v w : Window) : syn (v ^^^ w) = syn v ^^^ syn w := by
  unfold syn
  rw [BitVec.extractLsb'_xor, BitVec.extractLsb'_xor, synLoop_xor]

theorem syn_zero : syn 0#26 = 0#10 := by decide

/-- Settles O46: the loop is linear, and a single bit meets one row. -/
theorem syndromeIsLinear : Obligations.SyndromeIsLinear :=
  ⟨syn_xor, syn_zero, by decide, by decide⟩

/-- Settles O44: the 25 rows, each a fixed word. -/
theorem parityRowsFollowTheGenerator : Obligations.ParityRowsFollowTheGenerator := by
  unfold Obligations.ParityRowsFollowTheGenerator
  decide

/-- Settles O45: an offset word has ten bits, which the syndrome takes over unchanged. -/
theorem offsetWordsHaveOffsetSyndromes : Obligations.OffsetWordsHaveOffsetSyndromes := by
  intro o
  cases o <;> decide

/-! ### The corrector -/

/-- The Meggitt loop reads the syndrome only: its flips are those it would make in any other window
(44_syndrome_fec.md R218). -/
theorem meggittLoop_xor (n : Nat) (s : Syndrome) (w e m : Window) :
    meggittLoop n s (w ^^^ e) m = ((meggittLoop n s e m).1, w ^^^ (meggittLoop n s e m).2) := by
  induction n generalizing s e m with
  | zero => rfl
  | succ n ih =>
    have hsyn : (meggittStep s (w ^^^ e) m).1 = (meggittStep s e m).1 := meggittStep_syndrome s _ m _ m
    have hwin : (meggittStep s (w ^^^ e) m).2 = w ^^^ (meggittStep s e m).2 := by
      rw [meggittStep_window, meggittStep_window]
      split
      · exact BitVec.xor_assoc w e m
      · rfl
    simp only [meggittLoop]
    rw [hsyn, hwin, ih]

/-- Settles O49: the syndrome of the sum is the error's own, and so are the flips. -/
theorem correctionDependsOnErrorOnly : Obligations.CorrectionDependsOnErrorOnly := by
  intro w e off hclean he
  have hsyn : syn (w ^^^ e) ^^^ off = syn e := by
    calc syn (w ^^^ e) ^^^ off
      _ = syn e ^^^ (syn w ^^^ off) := by rw [syn_xor]; ac_rfl
      _ = syn e := by rw [hclean, BitVec.xor_zero]
  rw [checkBlock_fec (by rwa [hsyn]), hsyn]
  exact meggittLoop_xor 16 (syn e) w e _

/-- The loop leaves the bits that none of its masks touches. -/
theorem meggittLoop_low (n : Nat) (s : Syndrome) (w m : Window)
    (hm : ∀ j < n, (m >>> j).extractLsb' 0 10 = 0#10) :
    (meggittLoop n s w m).2.extractLsb' 0 10 = w.extractLsb' 0 10 := by
  induction n generalizing s w m with
  | zero => rfl
  | succ n ih =>
    have hnext : ∀ j < n, (m >>> 1 >>> j).extractLsb' 0 10 = 0#10 := fun j hj => by
      rw [← BitVec.shiftRight_add]
      exact hm (1 + j) (by omega)
    simp only [meggittLoop]
    rw [ih _ _ _ hnext, meggittStep_window]
    split
    · have h0 : m.extractLsb' 0 10 = 0#10 := hm 0 (Nat.zero_lt_succ n)
      rw [BitVec.extractLsb'_xor, h0, BitVec.xor_zero]
    · rfl

/-- Settles O48: the sixteen masks are window bits 25 to 10. -/
theorem correctorFlipsOnlyPayloadBits : Obligations.CorrectorFlipsOnlyPayloadBits :=
  fun s w => meggittLoop_low 16 s w _ (by decide)

/-- The corrector on each of the bursts within window bits 25..10, alone in the window. -/
theorem meggitt_payloadBurst : ∀ v < 32, ∀ k < 26, 0 < v ∧ 10 ≤ k ∧ v * 2 ^ k < 2 ^ 26 →
    syn (BitVec.ofNat 26 (v * 2 ^ k)) ≠ 0#10 ∧
      meggitt (syn (BitVec.ofNat 26 (v * 2 ^ k))) (BitVec.ofNat 26 (v * 2 ^ k)) = (0#10, 0#26) := by
  decide +kernel

/-- The corrector on each of the bursts that touch window bits 9..0, alone in the window. -/
theorem meggitt_checkBitBurst : ∀ v < 32, ∀ k < 10, 0 < v ∧ v * 2 ^ k % 2 ^ 10 ≠ 0 →
    syn (BitVec.ofNat 26 (v * 2 ^ k)) ≠ 0#10 ∧
      (meggitt (syn (BitVec.ofNat 26 (v * 2 ^ k))) (BitVec.ofNat 26 (v * 2 ^ k))).1 ≠ 0#10 := by
  decide +kernel

/-- Settles O50: correction depends on the burst alone, and each burst alone is corrected. -/
theorem payloadBurstIsCorrected : Obligations.PayloadBurstIsCorrected := by
  intro w off v k hclean hv hv5 hk hfit
  have hk26 : k < 26 := (Nat.pow_lt_pow_iff_right (by decide)).1
    (Nat.lt_of_le_of_lt (Nat.le_mul_of_pos_left (2 ^ k) hv) hfit)
  obtain ⟨hsyn, hcorr⟩ := meggitt_payloadBurst v hv5 k hk26 ⟨hv, hk, hfit⟩
  rw [correctionDependsOnErrorOnly w _ off hclean hsyn, hcorr, BitVec.xor_zero]

/-- Settles O51: correction depends on the burst alone, and no such burst alone is corrected. -/
theorem checkBitBurstIsNotCorrected : Obligations.CheckBitBurstIsNotCorrected := by
  intro w off v k hclean hv hv5 htouch _
  have hk : k < 10 := by
    by_contra hge
    obtain ⟨j, rfl⟩ := Nat.exists_eq_add_of_le (Nat.not_lt.1 hge)
    exact htouch (Nat.mod_eq_zero_of_dvd ⟨v * 2 ^ j, by ring⟩)
  obtain ⟨hsyn, hcorr⟩ := meggitt_checkBitBurst v hv5 k hk ⟨hv, htouch⟩
  rw [correctionDependsOnErrorOnly w _ off hclean hsyn]
  exact hcorr

/-- Settles O52: the corrector run on each of the 1023 syndromes. -/
theorem correctableSyndromeCount : Obligations.CorrectableSyndromeCount := by
  unfold Obligations.CorrectableSyndromeCount
  decide +kernel

/-! ### Correctly formed blocks -/

/-- A map of words that respects XOR. -/
def XorLinear {k : Nat} (f : BitVec k → Syndrome) : Prop := ∀ a b, f (a ^^^ b) = f a ^^^ f b

theorem XorLinear.map_zero {k : Nat} {f : BitVec k → Syndrome} (hf : XorLinear f) : f 0#k = 0#10 := by
  have h := hf 0#k 0#k
  rwa [BitVec.xor_self, BitVec.xor_self] at h

/-- Taking away the top bit of a word below `2 ^ (n + 1)`. -/
theorem toNat_xor_twoPow_lt {k n : Nat} {p : BitVec k} (hn : n < k) (hp : p.toNat < 2 ^ (n + 1))
    (hbit : p.getLsbD n = true) : (p ^^^ BitVec.twoPow k n).toNat < 2 ^ n := by
  rw [BitVec.toNat_xor, BitVec.toNat_twoPow_of_lt hn]
  refine Nat.lt_pow_two_of_testBit _ fun i hi => ?_
  rw [Nat.testBit_xor, Nat.testBit_two_pow]
  obtain rfl | hlt := Nat.eq_or_lt_of_le hi
  · have hset : p.toNat.testBit n = true := hbit
    simp [hset]
  · have hclear : p.toNat.testBit i = false :=
      Nat.testBit_lt_two_pow (Nat.lt_of_lt_of_le hp (Nat.pow_le_pow_right (by decide) hlt))
    simp [hclear, hlt.ne]

/-- Two such maps are equal if they agree on the single bits. -/
theorem XorLinear.eq_of_twoPow {k : Nat} {f g : BitVec k → Syndrome} (hf : XorLinear f) (hg : XorLinear g)
    (hbit : ∀ i < k, f (BitVec.twoPow k i) = g (BitVec.twoPow k i)) (p : BitVec k) : f p = g p := by
  have hlow : ∀ n ≤ k, ∀ p : BitVec k, p.toNat < 2 ^ n → f p = g p := by
    intro n
    induction n with
    | zero =>
      intro _ p hp
      obtain rfl : p = 0#k := BitVec.eq_of_toNat_eq (by simpa using hp)
      rw [hf.map_zero, hg.map_zero]
    | succ n ih =>
      intro hn p hp
      cases hb : p.getLsbD n with
      | true =>
        have hsplit : p = (p ^^^ BitVec.twoPow k n) ^^^ BitVec.twoPow k n := by
          rw [BitVec.xor_assoc, BitVec.xor_self, BitVec.xor_zero]
        rw [hsplit, hf, hg, hbit n hn, ih (by omega) _ (toNat_xor_twoPow_lt hn hp hb)]
      | false =>
        refine ih (by omega) p (Nat.lt_pow_two_of_testBit _ fun i hi => ?_)
        obtain rfl | hlt := Nat.eq_or_lt_of_le hi
        · exact hb
        · exact Nat.testBit_lt_two_pow (Nat.lt_of_lt_of_le hp (Nat.pow_le_pow_right (by decide) hlt))
  exact hlow k (Nat.le_refl k) p p.isLt

/-- Long division by the generator is linear. -/
theorem polyMod_xor (n : Nat) (a b : Window) : polyMod n (a ^^^ b) = polyMod n a ^^^ polyMod n b := by
  induction n generalizing a b with
  | zero => rfl
  | succ n ih =>
    simp only [polyMod]
    rw [← ih, BitVec.getLsbD_xor]
    congr 1
    cases a.getLsbD (n + 10) with
    | false =>
      cases b.getLsbD (n + 10) with
      | false => rfl
      | true => exact BitVec.xor_assoc a b _
    | true =>
      generalize gpoly.setWidth 26 <<< n = g
      cases b.getLsbD (n + 10) with
      | false =>
        show a ^^^ b ^^^ g = a ^^^ g ^^^ b
        ac_rfl
      | true =>
        calc a ^^^ b
          _ = a ^^^ b ^^^ (g ^^^ g) := by rw [BitVec.xor_self, BitVec.xor_zero]
          _ = a ^^^ g ^^^ (b ^^^ g) := by ac_rfl

theorem crc10_xorLinear : XorLinear crc10 := by
  intro a b
  unfold crc10
  rw [BitVec.setWidth_xor, BitVec.shiftLeft_xor_distrib, polyMod_xor, BitVec.setWidth_xor]

theorem syn_payload_xorLinear : XorLinear fun p : Payload => syn (p.setWidth 26 <<< 10) := by
  intro a b
  dsimp only
  rw [BitVec.setWidth_xor, BitVec.shiftLeft_xor_distrib, syn_xor]

theorem syn_crc10_xorLinear : XorLinear fun p : Payload => syn ((crc10 p).setWidth 26) := by
  intro a b
  dsimp only
  rw [crc10_xorLinear, BitVec.setWidth_xor, syn_xor]

/-- A payload and its check bits have the same syndrome, so they cancel (44_syndrome_fec.md R213). -/
theorem syn_payload_eq_syn_crc10 (p : Payload) : syn (p.setWidth 26 <<< 10) = syn ((crc10 p).setWidth 26) :=
  syn_payload_xorLinear.eq_of_twoPow syn_crc10_xorLinear (by decide +kernel) p

/-- Payload and check bits do not overlap, so the block is their sum. -/
theorem blockWord_eq_xor (p : Payload) (o : OffsetName) :
    blockWord p o = (p.setWidth 26 <<< 10) ^^^ ((crc10 p).setWidth 26 ^^^ (offsetWord o).setWidth 26) := by
  unfold blockWord
  rw [← BitVec.setWidth_xor]
  ext i hi
  by_cases h : i < 10
  · simp [h]
  · have hcrc : (crc10 p).getLsbD i = false := BitVec.getLsbD_of_ge _ _ (by omega)
    have hoff : (offsetWord o).getLsbD i = false := BitVec.getLsbD_of_ge _ _ (by omega)
    simp [h, hcrc, hoff]

theorem payload_blockWord (p : Payload) (o : OffsetName) : payload (blockWord p o) = p := by
  unfold payload blockWord
  ext i hi
  simp [show 10 + i < 26 by omega, hi]

/-- A correctly formed block has the syndrome of its offset (44_syndrome_fec.md R213). -/
theorem syn_blockWord (p : Payload) (o : OffsetName) : syn (blockWord p o) = offsetSyndrome (offsetIndex o) := by
  rw [blockWord_eq_xor, syn_xor, syn_xor, syn_payload_eq_syn_crc10, ← BitVec.xor_assoc, BitVec.xor_self,
    BitVec.zero_xor]
  exact offsetWordsHaveOffsetSyndromes o

/-- Settles O47: the payload and the check bits of a block cancel in its syndrome, and the offset word
leaves that of the offset. -/
theorem wellFormedBlockChecksClean : Obligations.WellFormedBlockChecksClean := by
  intro p o f
  exact ⟨payload_blockWord p o, checkBlock_clean (by rw [syn_blockWord, BitVec.xor_self]) f⟩

end Sys2Proof.Machine
end

section
/-! A correctly formed group fed bit by bit (43_block_sync.md R183 to R196, 70_reset_and_hazards.md R280):
the window after the bits of a word, what the bits of a block do, and the group block by block. -/

namespace Sys2Proof.Machine

/-! ### The window after the bits of a word -/

theorem toNat_shiftWindow (w : Window) (d : Bool) :
    (shiftWindow w d).toNat = (2 * w.toNat + d.toNat) % 2 ^ 26 := by
  have hor : w <<< 1 ||| (BitVec.ofBool d).setWidth 26 = w <<< 1 + (BitVec.ofBool d).setWidth 26 := by
    refine (BitVec.add_eq_or_of_and_eq_zero _ _ ?_).symm
    ext i hi
    cases i <;> simp
  unfold shiftWindow
  rw [hor]
  cases d <;> simp [Nat.shiftLeft_eq, Nat.mul_comm]

/-- The window after `n` bits of `v`, most significant first. -/
theorem toNat_foldl_msbFirst (v n : Nat) (w : Window) :
    ((msbFirst v n).foldl shiftWindow w).toNat = (w.toNat * 2 ^ n + v % 2 ^ n) % 2 ^ 26 := by
  induction n generalizing w with
  | zero => simp [msbFirst, Nat.mod_one, Nat.mod_eq_of_lt w.isLt]
  | succ n ih =>
    have hv : v % 2 ^ (n + 1) = (v.testBit n).toNat * 2 ^ n + v % 2 ^ n := by
      rw [Nat.mod_pow_succ, Nat.toNat_testBit, Nat.mul_comm, Nat.add_comm]
    rw [msbFirst, List.foldl_cons, ih, toNat_shiftWindow, hv, Nat.add_mod, Nat.mod_mul_mod, ← Nat.add_mod]
    congr 1
    ring

/-- The 26 bits of a word leave that word in the window, whatever was there (43_block_sync.md R172). -/
theorem foldl_wordBits (w v : Window) : (wordBits w).foldl shiftWindow v = w := by
  refine BitVec.eq_of_toNat_eq ?_
  rw [wordBits, toNat_foldl_msbFirst, Nat.mod_eq_of_lt w.isLt, Nat.mul_add_mod_self_right]
  exact Nat.mod_eq_of_lt w.isLt

theorem length_msbFirst (v n : Nat) : (msbFirst v n).length = n := by
  induction n with
  | zero => rfl
  | succ n ih => rw [msbFirst, List.length_cons, ih]

theorem length_wordBits (w : Window) : (wordBits w).length = 26 := length_msbFirst _ _

/-- The bits of a word are 25 bits and a last one. -/
theorem exists_wordBits_eq_append (w : Window) :
    ∃ bits b, wordBits w = bits ++ [b] ∧ bits.length = 25 ∧
      ∀ v, shiftWindow (bits.foldl shiftWindow v) b = w := by
  have hne : wordBits w ≠ [] := List.ne_nil_of_length_pos (by rw [length_wordBits]; decide)
  have hsplit : wordBits w = (wordBits w).dropLast ++ [(wordBits w).getLast hne] :=
    (List.dropLast_append_getLast hne).symm
  refine ⟨_, _, hsplit, by rw [List.length_dropLast, length_wordBits], fun v => ?_⟩
  have hfold := foldl_wordBits w v
  rwa [hsplit, List.foldl_append] at hfold

/-! ### Bits fed one after another -/

theorem feedBits_cons {b : Bool} {bits : List Bool} {s t : State} (h : exec (.bit b) s = .next t) :
    feedBits (b :: bits) s = feedBits bits t := by
  simp only [feedBits, h]

theorem feedBits_append {bits more : List Bool} {s t : State} (h : feedBits bits s = .next t) :
    feedBits (bits ++ more) s = feedBits more t := by
  induction bits generalizing s with
  | nil =>
    cases h
    rfl
  | cons b bits ih =>
    rw [List.cons_append, feedBits_cons (exec_bit_eq b s)]
    rw [feedBits_cons (exec_bit_eq b s)] at h
    exact ih h

theorem feedBits_singleton (b : Bool) (s : State) : feedBits [b] s = exec (.bit b) s := by
  rw [feedBits_cons (exec_bit_eq b s), exec_bit_eq]
  rfl

/-- Bits that do not complete a block are shifted in and counted (43_block_sync.md R183). -/
theorem feedBits_within_block (bits : List Bool) {s : State} (hst : s.dec.state ≠ .bitsync)
    (hlen : s.dec.bitcnt.val + bits.length < 26) :
    ∃ r, feedBits bits s = .next { s with
      win := bits.foldl shiftWindow s.win
      dec := { s.dec with bitcnt := ⟨s.dec.bitcnt.val + bits.length, hlen⟩ }
      resp := r } := by
  induction bits generalizing s with
  | nil => exact ⟨s.resp, rfl⟩
  | cons b bits ih =>
    rw [List.length_cons] at hlen
    rw [feedBits_cons (exec_bit_within_block hst (by omega) b)]
    obtain ⟨r, hr⟩ := ih (s := setDecoder (clearResp s) (bitView s (shiftWindow s.win b)
      { s.dec with bitcnt := ⟨s.dec.bitcnt.val + 1, by omega⟩ })) hst
      (by simp only [setDecoder_dec, bitView_dec]; omega)
    refine ⟨r, hr.trans ?_⟩
    simp only [setDecoder_dec, bitView_dec, List.length_cons, Nat.add_comm bits.length, Nat.add_assoc]
    rfl

/-- While no window acquires, BITSYNC only shifts (43_block_sync.md R180). -/
theorem feedBits_bitsync (bits : List Bool) {s : State} (hst : s.dec.state = .bitsync)
    (hbad : ∀ n, 1 ≤ n → n ≤ bits.length → syn ((bits.take n).foldl shiftWindow s.win) ≠ offsetSyndrome 0) :
    ∃ r, feedBits bits s = .next { s with win := bits.foldl shiftWindow s.win, resp := r } := by
  induction bits generalizing s with
  | nil => exact ⟨s.resp, rfl⟩
  | cons b bits ih =>
    have hfirst : syn (shiftWindow s.win b) ≠ offsetSyndrome 0 := hbad 1 (Nat.le_refl 1) (by simp)
    rw [feedBits_cons (exec_bit_bitsync hst b),
      bitsyncArm_of_not_clean (v := bitView s (shiftWindow s.win b) s.dec) hfirst]
    obtain ⟨r, hr⟩ := ih (s := setDecoder (clearResp s) (bitView s (shiftWindow s.win b) s.dec)) hst
      fun n _ hn => hbad (n + 1) (by omega) (by simpa using hn)
    exact ⟨r, hr⟩

/-! ### A block -/

/-- The state in which the last bit of a block arrives, `v` being the window and `r` the last response. -/
def beforeLastBit (s : State) (v : Window) (r : Response) : State :=
  { s with win := v, dec := { s.dec with bitcnt := 25 }, resp := r }

/-- The bits of a block, outside BITSYNC: the last one comes at count 25 and completes the word. -/
theorem feedBits_wordBits {s : State} (w : Window) (hst : s.dec.state ≠ .bitsync) (hcnt : s.dec.bitcnt = 0) :
    ∃ v b r, shiftWindow v b = w ∧ feedBits (wordBits w) s = exec (.bit b) (beforeLastBit s v r) := by
  obtain ⟨bits, b, hsplit, hlen, hlast⟩ := exists_wordBits_eq_append w
  have hcount : s.dec.bitcnt.val + bits.length = 25 := by rw [hcnt, hlen]; rfl
  obtain ⟨r, hr⟩ := feedBits_within_block bits hst (by omega)
  refine ⟨_, b, r, hlast s.win, ?_⟩
  rw [hsplit, feedBits_append hr, feedBits_singleton]
  simp only [hcount]
  rfl

theorem boundary_view_eq {s : State} (w : Window) (hcnt : s.dec.bitcnt = 0) :
    bitView s w { s.dec with bitcnt := 0 } = bitView s w s.dec := by
  rw [← hcnt]

/-- The bits of a good block in BLOCKSYNC (43_block_sync.md R184). -/
theorem feedBits_goodBlock_blocksync {s : State} {w : Window} (hst : s.dec.state = .blocksync)
    (hcnt : s.dec.bitcnt = 0) (hgood : syn w = targetOffset s.dec) :
    feedBits (wordBits w) s = .next (setDecoder (clearResp s) (blocksyncGood (bitView s w s.dec))) := by
  obtain ⟨v, b, r, rfl, hfeed⟩ := feedBits_wordBits w (by simp [hst]) hcnt
  have hboundary : blocksyncBoundary s.cfg (bitView s (shiftWindow v b) { s.dec with bitcnt := 0 }) =
      blocksyncGood (bitView s (shiftWindow v b) s.dec) := by
    rw [boundary_view_eq _ hcnt]
    exact blocksyncBoundary_of_good s.cfg hgood
  rw [hfeed, exec_bit_blocksync_boundary (s := beforeLastBit s v r) hst rfl, ← hboundary]
  rfl

/-- The bits of a good block in GROUPDECODE, which needs no correction (43_block_sync.md R189). -/
theorem feedBits_goodBlock_groupdecode {s : State} {w : Window} (hst : s.dec.state = .groupdecode)
    (hcnt : s.dec.bitcnt = 0) (hgood : syn w = targetOffset s.dec) :
    feedBits (wordBits w) s = .next (setDecoder (clearResp s) (groupdecodeGood (bitView s w s.dec))) := by
  obtain ⟨v, b, r, rfl, hfeed⟩ := feedBits_wordBits w (by simp [hst]) hcnt
  have hclean : checkBlock (shiftWindow v b) (targetOffset s.dec) true = (0#10, shiftWindow v b) :=
    checkBlock_clean (BitVec.xor_eq_zero_iff.2 hgood) true
  have hboundary : groupdecodeBoundary s.cfg (bitView s (shiftWindow v b) { s.dec with bitcnt := 0 }) =
      groupdecodeGood (bitView s (shiftWindow v b) s.dec) := by
    rw [boundary_view_eq _ hcnt]
    exact groupdecodeBoundary_of_clean s.cfg (v := bitView s (shiftWindow v b) s.dec) hclean rfl
  rw [hfeed, exec_bit_groupdecode_boundary (s := beforeLastBit s v r) hst rfl, ← hboundary]
  rfl

/-- The machine expects the first bit of a block whose good end stores it: BLOCKSYNC or GROUPDECODE. -/
def AwaitsBlock (s : State) : Prop :=
  (s.dec.state = .blocksync ∨ s.dec.state = .groupdecode) ∧ s.dec.bitcnt = 0

/-- The bits of a good block A, B or C (43_block_sync.md R185, R193). -/
theorem feedBits_goodBlock {s : State} {w : Window} (h : AwaitsBlock s) (hgood : syn w = targetOffset s.dec)
    (hnotD : s.dec.block ≠ 3) :
    feedBits (wordBits w) s = .next (setDecoder (clearResp s) (advance (store (bitView s w s.dec)))) := by
  obtain ⟨hst | hst, hcnt⟩ := h
  · rw [feedBits_goodBlock_blocksync hst hcnt hgood, blocksyncGood_of_not_blockD hnotD]
  · rw [feedBits_goodBlock_groupdecode hst hcnt hgood, groupdecodeGood_of_not_blockD hnotD]

/-- The bits of a good block D dispatch the group (43_block_sync.md R187, R194). -/
theorem feedBits_goodBlockD {s : State} {w : Window} (h : AwaitsBlock s) (hgood : syn w = targetOffset s.dec)
    (hD : s.dec.block = 3) :
    feedBits (wordBits w) s = .next (setDecoder (clearResp s)
      ⟨w, ⟨.groupdecode, 0, 0, s.dec.goff, 0#8⟩, { s.data with d := payload w },
        some { s.data with d := payload w }⟩) := by
  obtain ⟨hst | hst, hcnt⟩ := h
  · rw [feedBits_goodBlock_blocksync hst hcnt hgood, blocksyncGood_of_blockD hD, advance_store_blockD hD,
      ← hcnt]
    rfl
  · rw [feedBits_goodBlock_groupdecode hst hcnt hgood, groupdecodeGood_of_blockD hD, advance_store_blockD hD,
      ← hcnt, ← hst]
    rfl

/-! ### A group -/

/-! The offset of each target block: only block C's depends on the group type (43_block_sync.md R174). -/

theorem targetOffset_blockA {d : Dec} (h : d.block = 0) : targetOffset d = offsetSyndrome (offsetIndex .A) := by
  unfold targetOffset
  rw [h]
  cases d.goff <;> rfl

theorem targetOffset_blockB {d : Dec} (h : d.block = 1) : targetOffset d = offsetSyndrome (offsetIndex .B) := by
  unfold targetOffset
  rw [h]
  cases d.goff <;> rfl

theorem targetOffset_blockC {d : Dec} {p : Payload} (h : d.block = 2)
    (hgoff : d.goff = if groupType p = true then .four else .zero) :
    targetOffset d = offsetSyndrome (offsetIndex (thirdOffset p)) := by
  unfold targetOffset thirdOffset
  rw [h, hgoff]
  unfold groupType
  cases p.getLsbD groupTypeBit <;> rfl

theorem targetOffset_blockD {d : Dec} (h : d.block = 3) : targetOffset d = offsetSyndrome (offsetIndex .D) := by
  unfold targetOffset
  rw [h]
  cases d.goff <;> rfl

/-- A word that carries payload `p` and checks clean at the offset named `o`. -/
structure CarriesBlock (w : Window) (p : Payload) (o : OffsetName) : Prop where
  carries : payload w = p
  clean : syn w = offsetSyndrome (offsetIndex o)

theorem carriesBlock_blockWord (p : Payload) (o : OffsetName) : CarriesBlock (blockWord p o) p o :=
  ⟨payload_blockWord p o, syn_blockWord p o⟩

/-- Blocks B, C and D of a correctly formed group end in its dispatch, with the payload of block A that was
stored before them. -/
theorem feedBits_blocksBCD {s : State} (h : AwaitsBlock s) (hB : s.dec.block = 1) {b c d : Payload}
    {wb wc wd : Window} (hwb : CarriesBlock wb b .B) (hwc : CarriesBlock wc c (thirdOffset b))
    (hwd : CarriesBlock wd d .D) :
    ∃ t, feedBits (wordBits wb ++ (wordBits wc ++ wordBits wd)) s = .next t ∧
      t.resp.group = some ⟨s.data.a, b, c, d⟩ ∧ t.data = ⟨s.data.a, b, c, d⟩ ∧ t.win = wd ∧
      t.dec = ⟨.groupdecode, 0, 0, if b.getLsbD 11 = true then .four else .zero, 0#8⟩ := by
  have feedB := feedBits_goodBlock h (hwb.clean.trans (targetOffset_blockB hB).symm) (by simp [hB])
  rw [advance_store_blockB hB, bitView_win, hwb.carries] at feedB
  rw [feedBits_append feedB]
  generalize hs₁ : setDecoder (clearResp s) _ = s₁
  have hC : s₁.dec.block = 2 := by subst hs₁; rfl
  have h₁ : AwaitsBlock s₁ := by subst hs₁; exact h
  have hgoff₁ : s₁.dec.goff = if groupType b = true then .four else .zero := by subst hs₁; rfl
  have hdata₁ : s₁.data = { s.data with b := b } := by subst hs₁; rfl
  have feedC := feedBits_goodBlock h₁ (hwc.clean.trans (targetOffset_blockC hC hgoff₁).symm) (by simp [hC])
  rw [advance_store_blockC hC, bitView_win, hwc.carries] at feedC
  rw [feedBits_append feedC]
  generalize hs₂ : setDecoder (clearResp s₁) _ = s₂
  have hD : s₂.dec.block = 3 := by subst hs₂; rfl
  have h₂ : AwaitsBlock s₂ := by subst hs₂; exact h₁
  have hgoff₂ : s₂.dec.goff = if groupType b = true then .four else .zero := by subst hs₂; exact hgoff₁
  have hdata₂ : s₂.data = { s₁.data with c := c } := by subst hs₂; rfl
  refine ⟨_, feedBits_goodBlockD h₂ (hwd.clean.trans (targetOffset_blockD hD).symm) hD, ?_⟩
  rw [hwd.carries, hdata₂, hdata₁, hgoff₂]
  exact ⟨rfl, rfl, rfl, rfl⟩

/-- The bits of a group, block by block. -/
theorem groupBits_eq (a b c d : Payload) :
    groupBits a b c d = wordBits (blockWord a .A) ++ (wordBits (blockWord b .B) ++
      (wordBits (blockWord c (thirdOffset b)) ++ wordBits (blockWord d .D))) := by
  simp only [groupBits, List.append_assoc]

/-- Settles O42: block A is stored, and blocks B, C and D end in the dispatch. -/
theorem cleanGroupIsDispatched : Obligations.CleanGroupIsDispatched := by
  intro s a b c d hst hA hcnt
  have feedA := feedBits_goodBlock (w := blockWord a .A) ⟨.inr hst, hcnt⟩
    ((syn_blockWord a .A).trans (targetOffset_blockA hA).symm) (by simp [hA])
  rw [advance_store_blockA hA, bitView_win, payload_blockWord] at feedA
  generalize hu : setDecoder (clearResp s) _ = u at feedA
  have hB : u.dec.block = 1 := by subst hu; rfl
  have hawaits : AwaitsBlock u := by subst hu; exact ⟨.inr hst, hcnt⟩
  have hdata : u.data.a = a := by subst hu; rfl
  rw [groupBits_eq, feedBits_append feedA, ← hdata]
  exact feedBits_blocksBCD hawaits hB (carriesBlock_blockWord b .B)
    (carriesBlock_blockWord c _) (carriesBlock_blockWord d .D)

/-- Block A's bits in BITSYNC, without a false lock before the last: it acquires (43_block_sync.md
R181). -/
theorem feedBits_blockA_acquires {s : State} (hst : s.dec.state = .bitsync) (a : Payload)
    (hbad : ∀ n, 1 ≤ n → n ≤ 25 →
      syn (((wordBits (blockWord a .A)).take n).foldl shiftWindow s.win) ≠ offsetSyndrome 0) :
    feedBits (wordBits (blockWord a .A)) s =
      .next (setDecoder (clearResp s) (acquire (bitView s (blockWord a .A) s.dec))) := by
  obtain ⟨bits, b, hsplit, hlen, hlast⟩ := exists_wordBits_eq_append (blockWord a .A)
  rw [hsplit] at hbad ⊢
  obtain ⟨r, hr⟩ := feedBits_bitsync bits hst fun n h1 hn => by
    have := hbad n h1 (hlen ▸ hn)
    rwa [List.take_append_of_le_length hn] at this
  rw [feedBits_append hr, feedBits_singleton,
    exec_bit_bitsync (s := { s with win := bits.foldl shiftWindow s.win, resp := r }) hst, hlast,
    bitsyncArm_of_clean (v := bitView _ (blockWord a .A) _) (syn_blockWord a .A)]
  rfl

/-- Settles O43: block A acquires, and blocks B, C and D end in the dispatch. -/
theorem cleanGroupIsAcquired : Obligations.CleanGroupIsAcquired := by
  intro s a b c d hst hbad
  have feedA := feedBits_blockA_acquires hst a hbad
  generalize hu : setDecoder (clearResp s) (acquire (bitView s (blockWord a .A) s.dec)) = u at feedA
  have hacquired : u.dec = ⟨.blocksync, 0, 1, .zero, s.dec.errcnt⟩ := by subst hu; rfl
  have hdata : u.data.a = a := by subst hu; exact payload_blockWord a .A
  rw [groupBits_eq]
  constructor
  · rw [List.take_left' (length_wordBits _)]
    exact ⟨u, feedA, by rw [hacquired], hdata⟩
  · rw [feedBits_append feedA]
    obtain ⟨t, hfeed, hgroup, -, -, hdec⟩ :=
      feedBits_blocksBCD (s := u) ⟨.inl (by rw [hacquired]), by rw [hacquired]⟩ (by rw [hacquired])
        (carriesBlock_blockWord b .B) (carriesBlock_blockWord c _) (carriesBlock_blockWord d .D)
    rw [hdata] at hgroup
    exact ⟨t, hfeed, hgroup, hdec⟩

end Sys2Proof.Machine
end

section
/-! Binary64 on finite values (00_scope.md R9): a sum is the exact integer sum rounded once, a product and a
quotient are the exact magnitude rounded once with the exclusive OR of the signs, and the order of the
results follows from the order of the exact values. -/

namespace Sys2Proof.Machine.Binary64

/-! The constants of 00_scope.md R11 and num(1), in patterns. -/

abbrev onePat : Pattern := 0x3FF0000000000000#64
abbrev piPat : Pattern := 0x400921FB54442D18#64
abbrev halfPiPat : Pattern := 0x3FF921FB54442D18#64
abbrev twoPiPat : Pattern := 0x401921FB54442D18#64
abbrev kAtanPat : Pattern := 0x3FD243FE5C91D14E#64

theorem ops_pi : ops.pi = .bits piPat := rfl
theorem ops_piHalf : ops.piHalf = .bits halfPiPat := rfl
theorem ops_twoPi : ops.twoPi = .bits twoPiPat := rfl

theorem isFinite_iff {x : Pattern} : isFinite x = true ↔ magBits x < infBits := decide_eq_true_iff

theorem isInf_of_isFinite {x : Pattern} (h : isFinite x = true) : isInf x = false :=
  decide_eq_false (Nat.ne_of_lt (isFinite_iff.1 h))

/-- A number that is not a NaN is finite or an infinity. -/
theorem isFinite_or_isInf {x : Pattern} (h : isNaN x = false) : isFinite x = true ∨ isInf x = true := by
  simp only [isNaN, isFinite, isInf, decide_eq_false_iff_not, decide_eq_true_eq] at *
  omega

theorem isNaN_zero : isNaN 0#64 = false := by decide

theorem key_zero : key 0#64 = 0 := by decide

theorem magBits_onePat_pos : 0 < magBits onePat := by decide

theorem isNaN_twoPiPat : isNaN twoPiPat = false := by decide

theorem natAbs_key (x : Pattern) : (key x).natAbs = magBits x := by
  unfold key
  split <;> simp

theorem natAbs_scaled (x : Pattern) : (scaled x).natAbs = magnitude x := by
  unfold scaled
  split <;> simp

theorem key_pack (b : Bool) {m : Nat} (h : m < 2 ^ 63) : key (pack b m) = if b then -(m : Int) else m := by
  rw [key, signOf_pack b h, magBits_pack b h]

/-! ### Order -/

theorem lt_iff_of_finite {x y : Pattern} (hx : isFinite x = true) (hy : isFinite y = true) :
    lt x y = true ↔ key x < key y := by
  simp [lt_iff, isNaN_of_isFinite hx, isNaN_of_isFinite hy]

theorem le_iff_of_finite {x y : Pattern} (hx : isFinite x = true) (hy : isFinite y = true) :
    le x y = true ↔ key x ≤ key y := by
  simp [le_iff, isNaN_of_isFinite hx, isNaN_of_isFinite hy]

theorem eq_iff {x y : Pattern} : eq x y = true ↔ isNaN x = false ∧ isNaN y = false ∧ key x = key y := by
  simp [eq, and_assoc]

theorem key_lt_of_lt {x y : Pattern} (h : lt x y = true) : key x < key y := by
  obtain ⟨-, -, hkey⟩ := lt_iff.1 h
  exact hkey

theorem key_eq_of_eq {x y : Pattern} (h : eq x y = true) : key x = key y := by
  obtain ⟨-, -, hkey⟩ := eq_iff.1 h
  exact hkey

/-- A number between two finite ones is finite. -/
theorem isFinite_of_between {x l h : Pattern} (hl : isFinite l = true) (hh : isFinite h = true)
    (hlx : key l ≤ key x) (hxh : key x ≤ key h) : isFinite x = true := by
  rw [isFinite_iff] at *
  have := natAbs_key x
  have := natAbs_key l
  have := natAbs_key h
  omega

/-! ### Rounding with its sign -/

/-- The key of the exact value `t` (in units of 2^-1074) rounded to nearest even. -/
def roundKey (t : Int) : Int := if t < 0 then -(roundMag t.natAbs 1 : Int) else roundMag t.natAbs 1

theorem roundMag_zero (d : Nat) : roundMag 0 d = 0 := by
  simp only [roundMag, Nat.zero_div, Nat.zero_mod, Nat.log2_zero]
  split <;> simp_all

theorem roundKey_mono {s t : Int} (h : s ≤ t) : roundKey s ≤ roundKey t := by
  have mono : ∀ a b : Nat, a ≤ b → roundMag a 1 ≤ roundMag b 1 := fun a b hab =>
    roundMag_mono Nat.one_pos Nat.one_pos (by omega)
  unfold roundKey
  split <;> split
  · have := mono t.natAbs s.natAbs (by omega)
    omega
  · omega
  · omega
  · have := mono s.natAbs t.natAbs (by omega)
    omega

theorem roundKey_scaled {x : Pattern} (h : isFinite x = true) : roundKey (scaled x) = key x := by
  have hm := roundMag_magnitude h
  have hs := natAbs_scaled x
  have h0 : magnitude x = 0 → magBits x = 0 := fun h0 => by rw [← hm, h0, roundMag_zero]
  unfold roundKey
  rw [hs, hm]
  unfold scaled key
  cases signOf x with
  | false => simp
  | true =>
    by_cases hz : magnitude x = 0
    · simp [hz, h0 hz]
    · rw [if_pos rfl, if_pos rfl, if_pos (by omega)]

/-! ### Sums and differences -/

theorem key_add {x y : Pattern} (hx : isFinite x = true) (hy : isFinite y = true) :
    key (add x y) = roundKey (scaled x + scaled y) := by
  simp only [add, isNaN_of_isFinite hx, isNaN_of_isFinite hy, isInf_of_isFinite hx, isInf_of_isFinite hy,
    Bool.or_false, Bool.false_eq_true, if_false]
  by_cases h0 : scaled x + scaled y = 0
  · rw [if_pos h0, key_pack _ (by decide), h0]
    simp [roundKey, roundMag_zero]
  · rw [if_neg h0, key_pack _ (roundMag_lt _ _)]
    simp [roundKey]

theorem isNaN_add {x y : Pattern} (hx : isFinite x = true) (hy : isNaN y = false) : isNaN (add x y) = false := by
  obtain hfin | hinf := isFinite_or_isInf hy
  · simp only [add, isNaN_of_isFinite hx, isNaN_of_isFinite hfin, isInf_of_isFinite hx, isInf_of_isFinite hfin,
      Bool.or_false, Bool.false_eq_true, if_false]
    split
    · exact decide_eq_false (by rw [magBits_pack _ (by decide)]; exact Nat.not_lt_zero _)
    · exact isNaN_pack_roundMag _ _ _
  · simp only [add, isNaN_of_isFinite hx, hy, isInf_of_isFinite hx, hinf, Bool.or_false, Bool.false_eq_true,
      if_false, if_true]

theorem signOf_neg (x : Pattern) : signOf (neg x) = !signOf x := by
  simp [signOf, neg]

theorem magBits_neg (x : Pattern) : magBits (neg x) = magBits x := by
  rw [magBits, neg, BitVec.toNat_xor, Nat.xor_mod_two_pow]
  exact Nat.xor_zero _

theorem isFinite_neg (x : Pattern) : isFinite (neg x) = isFinite x := by
  unfold isFinite
  rw [magBits_neg]

theorem isNaN_neg (x : Pattern) : isNaN (neg x) = isNaN x := by
  unfold isNaN
  rw [magBits_neg]

theorem scaled_neg (x : Pattern) : scaled (neg x) = -scaled x := by
  have hm : magnitude (neg x) = magnitude x := by
    unfold magnitude
    rw [magBits_neg]
  unfold scaled
  rw [signOf_neg, hm]
  cases signOf x <;> simp

theorem key_sub {x y : Pattern} (hx : isFinite x = true) (hy : isFinite y = true) :
    key (sub x y) = roundKey (scaled x - scaled y) := by
  rw [sub, key_add hx ((isFinite_neg y).trans hy), scaled_neg, Int.sub_eq_add_neg]

/-- An exact value between two numbers of the domain is rounded to one between them. -/
theorem roundKey_between {t : Int} {l h : Pattern} (hl : isFinite l = true) (hh : isFinite h = true)
    (hlt : scaled l ≤ t) (hth : t ≤ scaled h) : key l ≤ roundKey t ∧ roundKey t ≤ key h := by
  rw [← roundKey_scaled hl, ← roundKey_scaled hh]
  exact ⟨roundKey_mono hlt, roundKey_mono hth⟩

theorem isNaN_sub {x y : Pattern} (hx : isFinite x = true) (hy : isNaN y = false) : isNaN (sub x y) = false :=
  isNaN_add hx ((isNaN_neg y).trans hy)

/-! ### Products and quotients -/

theorem mul_eq {x y : Pattern} (hx : isFinite x = true) (hy : isFinite y = true) :
    mul x y = pack (signOf x != signOf y) (roundMag (magnitude x * magnitude y) (2 ^ 1074)) := by
  simp only [mul, isNaN_of_isFinite hx, isNaN_of_isFinite hy, isInf_of_isFinite hx, isInf_of_isFinite hy,
    Bool.or_false, Bool.false_eq_true, if_false]

theorem div_eq {x y : Pattern} (hx : isFinite x = true) (hy : isFinite y = true) (hy0 : magBits y ≠ 0) :
    div x y = pack (signOf x != signOf y) (roundMag (magnitude x * 2 ^ 1074) (magnitude y)) := by
  simp only [div, isNaN_of_isFinite hx, isNaN_of_isFinite hy, isInf_of_isFinite hx, isInf_of_isFinite hy,
    Bool.or_false, Bool.false_eq_true, if_false, if_neg hy0]

theorem magBits_mul {x y : Pattern} (hx : isFinite x = true) (hy : isFinite y = true) :
    magBits (mul x y) = roundMag (magnitude x * magnitude y) (2 ^ 1074) := by
  rw [mul_eq hx hy, magBits_pack _ (roundMag_lt _ _)]

theorem signOf_mul {x y : Pattern} (hx : isFinite x = true) (hy : isFinite y = true) :
    signOf (mul x y) = (signOf x != signOf y) := by
  rw [mul_eq hx hy, signOf_pack _ (roundMag_lt _ _)]

theorem magBits_div {x y : Pattern} (hx : isFinite x = true) (hy : isFinite y = true) (hy0 : magBits y ≠ 0) :
    magBits (div x y) = roundMag (magnitude x * 2 ^ 1074) (magnitude y) := by
  rw [div_eq hx hy hy0, magBits_pack _ (roundMag_lt _ _)]

theorem signOf_div {x y : Pattern} (hx : isFinite x = true) (hy : isFinite y = true) (hy0 : magBits y ≠ 0) :
    signOf (div x y) = (signOf x != signOf y) := by
  rw [div_eq hx hy hy0, signOf_pack _ (roundMag_lt _ _)]

end Sys2Proof.Machine.Binary64
end

section
/-! The tracker's bounds under binary64 (10_state.md R22, R38 items 1 and 6; 41_carrier_tracker.md R134): the
rounded endpoints hold FREQ_CENTER between them, the clamp and the wrap land in their ranges, and so every
step keeps the numeric invariant. -/

namespace Sys2Proof.Machine

open Binary64

theorem ops_of_binary64 {s : State} (hd : s.cfg.domain = .binary64) : ops s = Binary64.ops := by
  rw [Machine.ops, hd]
  rfl

/-- An admissible configuration of the reference domain, in patterns: a finite center and a finite range that
is not negative, with finite endpoints. -/
theorem admissible_binary64 {c : Config} (hd : c.domain = .binary64) (h : Admissible c) :
    ∃ f r : Pattern, c.freqCenter = .bits f ∧ c.freqRange = .bits r ∧
      loOf c = .bits (sub f r) ∧ hiOf c = .bits (add f r) ∧
      isFinite f = true ∧ isFinite r = true ∧ 0 ≤ key r ∧
      isFinite (sub f r) = true ∧ isFinite (add f r) = true := by
  obtain ⟨⟨-, -, hf, hr⟩, hneg, ⟨hlo, hhi⟩, -⟩ := (admissible_iff c).1 h
  have hN : numOpsOf c.domain = Binary64.ops := by rw [hd]; rfl
  simp only [loOf, hiOf, hN] at hf hr hneg hlo hhi ⊢
  obtain ⟨f, hcf, hff⟩ := ops_isFinite_iff.1 hf
  obtain ⟨r, hcr, hfr⟩ := ops_isFinite_iff.1 hr
  rw [hcf, hcr] at hlo hhi ⊢
  rw [hcr, ops_zero, ops_lt_bits] at hneg
  have hkey : ¬ key r < key 0#64 := fun hlt =>
    Bool.eq_false_iff.1 hneg ((lt_iff_of_finite hfr (by decide)).2 hlt)
  exact ⟨f, r, rfl, rfl, rfl, rfl, hff, hfr, Int.not_lt.1 hkey, hlo, hhi⟩

theorem scaled_nonneg_iff {x : Pattern} (h : isFinite x = true) : 0 ≤ scaled x ↔ 0 ≤ key x :=
  (key_le_iff (x := 0#64) (by decide) h).symm

/-- Settles O17: adding or taking away a range that is not negative moves no rounded sum past the center. -/
theorem frequencyCenterLiesInRange : Obligations.FrequencyCenterLiesInRange := by
  intro c hd hadm
  obtain ⟨f, r, hcf, hcr, hlo, hhi, hff, hfr, hr0, hflo, hfhi⟩ := admissible_binary64 hd hadm
  have hr0' : 0 ≤ scaled r := (scaled_nonneg_iff hfr).2 hr0
  rw [hlo, hhi, hcf, ops_le_bits, ops_le_bits, le_iff_of_finite hflo hff, le_iff_of_finite hff hfhi,
    key_sub hff hfr, key_add hff hfr, ← roundKey_scaled hff]
  exact ⟨roundKey_mono (by omega), roundKey_mono (by omega)⟩

/-! ### The clamp -/

/-- The clamp of a finite value between finite bounds in order (41_carrier_tracker.md R124). -/
theorem clamp_between {lo hi x : NumVal} (hlo : Binary64.ops.isFinite lo = true)
    (hhi : Binary64.ops.isFinite hi = true) (hx : Binary64.ops.isFinite x = true)
    (hle : Binary64.ops.le lo hi = true) :
    Binary64.ops.le lo (clamp Binary64.ops lo hi x) = true ∧
      Binary64.ops.le (clamp Binary64.ops lo hi x) hi = true := by
  obtain ⟨l, rfl, hl⟩ := ops_isFinite_iff.1 hlo
  obtain ⟨h, rfl, hh⟩ := ops_isFinite_iff.1 hhi
  obtain ⟨a, rfl, ha⟩ := ops_isFinite_iff.1 hx
  have hlh : key l ≤ key h := (le_iff_of_finite hl hh).1 hle
  simp only [clamp, ops_lt_bits, lt_iff_of_finite hh ha, lt_iff_of_finite ha hl]
  split
  · simp only [ops_le_bits, le_iff_of_finite hl hh, le_iff_of_finite hh hh]
    omega
  · split
    · simp only [ops_le_bits, le_iff_of_finite hl hh, le_iff_of_finite hl hl]
      omega
    · simp only [ops_le_bits, le_iff_of_finite hl ha, le_iff_of_finite ha hh]
      omega

/-- The frequency PLL leaves is its unclamped one, clamped (41_carrier_tracker.md R124). -/
theorem pllValues_f2 (cfg : Config) (nco : Nco) (re im : NumVal) :
    (pllValues cfg nco re im).f2 =
      clamp (numOpsOf cfg.domain) (loOf cfg) (hiOf cfg) (pllValues cfg nco re im).f1 := rfl

/-- A completed PLL leaves the frequency in [LO, HI]: LO <= FREQ_CENTER <= HI, so the bounds are in order. -/
theorem execPll_freq_between {s t : State} (hd : s.cfg.domain = .binary64) (hadm : Admissible s.cfg)
    (h : execPll s = .next t) :
    Binary64.ops.le (loOf s.cfg) t.nco.freq = true ∧ Binary64.ops.le t.nco.freq (hiOf s.cfg) = true := by
  obtain ⟨-, hvals, rfl⟩ := execPll_next h
  have hN : ops s = Binary64.ops := ops_of_binary64 hd
  obtain ⟨f, r, hcf, -, hlo, hhi, hff, -, -, hflo, hfhi⟩ := admissible_binary64 hd hadm
  obtain ⟨hlof, hfhi'⟩ := frequencyCenterLiesInRange s.cfg hd hadm
  have hle : Binary64.ops.le (loOf s.cfg) (hiOf s.cfg) = true := by
    rw [hlo, hcf, ops_le_bits, le_iff_of_finite hflo hff] at hlof
    rw [hhi, hcf, ops_le_bits, le_iff_of_finite hff hfhi] at hfhi'
    rw [hlo, hhi, ops_le_bits, le_iff_of_finite hflo hfhi]
    omega
  have hf1 : Binary64.ops.isFinite (pllValues s.cfg s.nco (operandRe s) (operandIm s)).f1 = true := by
    rw [← hN]
    exact (allFinite_iff _ _).1 hvals _ (by simp [pllChecked])
  have hclamp := clamp_between (by rw [hlo]; exact hflo) (by rw [hhi]; exact hfhi) hf1 hle
  rw [respondY_nco, pllValues_f2]
  exact hN ▸ hclamp

/-! ### The wrap -/

theorem isNaN_div {x y : Pattern} (hx : isFinite x = true) (hy : isFinite y = true) (hy0 : magBits y ≠ 0) :
    isNaN (div x y) = false := by
  rw [div_eq hx hy hy0]
  exact isNaN_pack_roundMag _ _ _

theorem isNaN_floor {x : Pattern} (hx : isNaN x = false) : isNaN (Binary64.floor x) = false := by
  unfold Binary64.floor
  split
  · exact isNaN_pack_roundMag _ _ _
  · exact hx

/-- A finite number that is not 0 times a number, perhaps an infinity, is no NaN. -/
theorem isNaN_mul {x y : Pattern} (hx : isFinite x = true) (hx0 : magBits x ≠ 0) (hy : isNaN y = false) :
    isNaN (mul x y) = false := by
  obtain hfin | hinf := isFinite_or_isInf hy
  · rw [mul_eq hx hfin]
    exact isNaN_pack_roundMag _ _ _
  · have hy0 : magBits y ≠ 0 := by
      rw [of_decide_eq_true hinf]
      decide
    simp only [mul, isNaN_of_isFinite hx, hy, isInf_of_isFinite hx, hinf, Bool.or_false, Bool.false_or,
      Bool.false_eq_true, if_false, if_true, hx0, hy0, or_self]
    exact decide_eq_false (by rw [magBits_pack _ (by decide)]; exact Nat.lt_irrefl _)

/-- The whole turns the wrap takes off a phase (41_carrier_tracker.md R133). -/
def wholeTurns (a : Pattern) : Pattern := mul twoPiPat (Binary64.floor (div a twoPiPat))

/-- Taking whole turns off a finite phase gives a number, perhaps an infinity, but no NaN. -/
theorem isNaN_wrap_remainder {p : Pattern} (hp : isFinite p = true) :
    isNaN (sub p (wholeTurns p)) = false :=
  isNaN_sub hp (isNaN_mul (by decide) (by decide) (isNaN_floor (isNaN_div hp (by decide) (by decide))))

/-- The wrap of a binary64 phase, in patterns (41_carrier_tracker.md R133). -/
theorem wrap_bits {a r : Pattern}
    (hr : sub a (wholeTurns a) = r) :
    wrap Binary64.ops (.bits a) =
      if lt r 0#64 || le twoPiPat r then .bits 0#64 else if eq r a then .bits a else .bits r := by
  subst hr
  unfold wrap
  rw [ops_zero, ops_twoPi]
  rfl

/-- A number in `[0, TWO_PI)`, in patterns. -/
theorem inTurn_iff {a : Pattern} : (le 0#64 a = true ∧ lt a twoPiPat = true) ↔
    isNaN a = false ∧ 0 ≤ key a ∧ key a < key twoPiPat := by
  rw [le_iff, lt_iff, isNaN_zero, key_zero, isNaN_twoPiPat]
  tauto

/-- The range test of the wrap, for a remainder that is a number (41_carrier_tracker.md R133). -/
theorem outOfTurn_eq_false_iff {r : Pattern} (h : isNaN r = false) :
    (lt r 0#64 || le twoPiPat r) = false ↔ 0 ≤ key r ∧ key r < key twoPiPat := by
  simp only [lt, le, h, isNaN_zero, key_zero, isNaN_twoPiPat, Bool.not_false, Bool.true_and, Bool.or_eq_false_iff,
    decide_eq_false_iff_not, Int.not_lt, Int.not_le]

/-- The wrap of a finite phase lies in [0, TWO_PI) (41_carrier_tracker.md R133, R134). -/
theorem wrap_between {p : NumVal} (hp : Binary64.ops.isFinite p = true) :
    Binary64.ops.le (.bits 0#64) (wrap Binary64.ops p) = true ∧
      Binary64.ops.lt (wrap Binary64.ops p) Binary64.ops.twoPi = true := by
  obtain ⟨a, rfl, ha⟩ := ops_isFinite_iff.1 hp
  have hnan := isNaN_wrap_remainder ha
  generalize hr : sub a (wholeTurns a) = r at hnan
  rw [wrap_bits hr]
  cases hin : lt r 0#64 || le twoPiPat r with
  | true =>
    exact show Binary64.ops.le (.bits 0#64) (.bits 0#64) = true ∧
      Binary64.ops.lt (.bits 0#64) Binary64.ops.twoPi = true by decide
  | false =>
    have hturn := (outOfTurn_eq_false_iff hnan).1 hin
    by_cases heq : eq r a = true
    · obtain ⟨-, hna, hkey⟩ := eq_iff.1 heq
      rw [if_pos heq]
      exact inTurn_iff.2 ⟨hna, hkey ▸ hturn⟩
    · rw [if_neg heq]
      exact inTurn_iff.2 ⟨hnan, hturn⟩

/-- Settles O16: the clamp and the wrap land in their ranges. -/
theorem trackerStaysInBounds : Obligations.TrackerStaysInBounds := by
  intro s t hd hadm
  refine ⟨execPll_freq_between hd hadm, fun hp h => ?_⟩
  have hN : ops s = Binary64.ops := ops_of_binary64 hd
  cases h
  rw [hN]
  exact wrap_between hp

/-! ### The numeric invariant -/

/-- Settles O56: the fields start at num(0) and FREQ_CENTER. -/
theorem constructionMeetsNumericInvariant : Obligations.ConstructionMeetsNumericInvariant := by
  intro c hd hadm
  obtain ⟨f, -, hcf, -, -, -, hff, -⟩ := admissible_binary64 hd hadm
  obtain ⟨habove, hbelow⟩ := frequencyCenterLiesInRange c hd hadm
  have hN : numOpsOf c.domain = Binary64.ops := by rw [hd]; rfl
  have hzero : Binary64.ops.isFinite (numOpsOf c.domain).zero = true := by
    rw [hN, ops_zero]
    decide
  have hfreq : Binary64.ops.isFinite c.freqCenter = true := by
    rw [hcf]
    exact hff
  exact ⟨hd, hadm, hzero, hfreq, hzero, hzero, hzero, habove, hbelow⟩

theorem isFinite_of_inTurn {p : NumVal} (h0 : Binary64.ops.le (.bits 0#64) p = true)
    (h2 : Binary64.ops.lt p Binary64.ops.twoPi = true) : Binary64.ops.isFinite p = true := by
  cases p with
  | bits a =>
    obtain ⟨-, hlow, hhigh⟩ := inTurn_iff.1 ⟨h0, h2⟩
    exact isFinite_of_between (l := 0#64) (by decide) (by decide) hlow hhigh.le
  | code n => exact absurd h0 Bool.false_ne_true

/-- The invariant reads the configuration, the NCO and the bit-sync history only. -/
theorem NumericInv.congr {s t : State} (h : NumericInv s) (hcfg : t.cfg = s.cfg) (hnco : t.nco = s.nco)
    (hbs : t.bs = { s.bs with lastBit := t.bs.lastBit }) : NumericInv t := by
  have hsync : t.bs.lastSync = s.bs.lastSync := by rw [hbs]
  have hslope : t.bs.lastSlope = s.bs.lastSlope := by rw [hbs]
  have hdata : t.bs.lastData = s.bs.lastData := by rw [hbs]
  obtain ⟨h1, h2, h3, h4, h5, h6, h7, h8, h9⟩ := h
  constructor <;> simpa only [hcfg, hnco, hsync, hslope, hdata]

theorem execPll_keeps_numericInv {s t : State} (h : NumericInv s) (he : execPll s = .next t) :
    NumericInv t := by
  obtain ⟨habove, hbelow⟩ := execPll_freq_between h.domain h.admissible he
  obtain ⟨-, hvals, rfl⟩ := execPll_next he
  rw [ops_of_binary64 h.domain, allFinite_iff] at hvals
  exact {
    domain := h.domain
    admissible := h.admissible
    phase := hvals _ (by simp [pllChecked])
    freq := hvals _ (by simp [pllChecked])
    lastSync := h.lastSync
    lastSlope := h.lastSlope
    lastData := h.lastData
    above := habove
    below := hbelow }

theorem execPllend_keeps_numericInv {s t : State} (h : NumericInv s) (he : execPllend s = .next t) :
    NumericInv t := by
  have hphase : Binary64.ops.isFinite (wrap (ops s) s.nco.phase) = true := by
    rw [ops_of_binary64 h.domain]
    obtain ⟨hlow, hhigh⟩ := wrap_between h.phase
    exact isFinite_of_inTurn hlow hhigh
  cases he
  exact { h with phase := hphase }

/-- Peak or not, SYNC leaves finite values in its history: its operands and its slope are tested. -/
theorem execSync_keeps_numericInv {s t : State} (h : NumericInv s) (he : execSync s = .next t) :
    NumericInv t := by
  obtain ⟨hops, hvals, -⟩ := execSync_next he
  rw [ops_of_binary64 h.domain, allFinite_iff] at hops hvals
  have hmf := hops (operandMf s) (by simp)
  have hsync := hops (operandSync s) (by simp)
  have hslope := hvals _ (List.mem_cons_self ..)
  have hcases := execSync_cases he
  simp only [syncProd, syncSlope, ops_of_binary64 h.domain] at hcases
  obtain ⟨-, rfl⟩ | ⟨-, rfl⟩ := hcases
  · exact { h with lastSync := hsync, lastSlope := hslope, lastData := hmf }
  · exact { h with lastSync := hsync, lastSlope := hslope, lastData := hmf }

theorem exec_keeps_numericInv {i : Instr} {s t : State} (h : NumericInv s) (he : exec i s = .next t) :
    NumericInv t := by
  cases i with
  | reset =>
    cases he
    exact (constructionMeetsNumericInvariant s.cfg h.domain h.admissible).congr rfl rfl rfl
  | pll => exact execPll_keeps_numericInv h he
  | pllend => exact execPllend_keeps_numericInv h he
  | sqr =>
    obtain ⟨-, -, rfl⟩ := execSqr_next he
    exact h.congr rfl rfl rfl
  | sync => exact execSync_keeps_numericInv h he
  | bit b =>
    cases he
    exact h.congr rfl rfl rfl
  | check o f =>
    cases he
    exact h.congr rfl rfl rfl

/-- Settles O57: an empty step changes nothing, and every command keeps the invariant. -/
theorem stepKeepsNumericInvariant : Obligations.StepKeepsNumericInvariant := by
  intro s t h hstep
  obtain ⟨-, ⟨-, rfl⟩ | ⟨c, rest, i, -, -, he⟩⟩ := step_next hstep
  · exact h
  · exact exec_keeps_numericInv (h.congr rfl rfl rfl : NumericInv (present s c rest)) he

end Sys2Proof.Machine
end

section
/-! Signs of products under binary64: the square of SQR (42_bitsync_demod.md R150) and the peak test of SYNC
(R153, R158). -/

namespace Sys2Proof.Machine

open Binary64

theorem not_lt_zero_quietNaN : lt quietNaN 0#64 = false := by decide

theorem not_lt_zero_pack_false {m : Nat} (h : m < 2 ^ 63) : lt (pack false m) 0#64 = false := by
  refine Bool.eq_false_iff.2 fun hlt => ?_
  have hkey := key_lt_of_lt hlt
  rw [key_pack false h, key_zero] at hkey
  exact absurd hkey (Int.not_lt.2 (Int.natCast_nonneg m))

theorem not_lt_zero_pack_zero (b : Bool) : lt (pack b 0) 0#64 = false := by
  revert b
  decide

/-- A product of two numbers of one sign is not below zero, finite or not. -/
theorem not_lt_zero_mul {x y : Pattern} (h : signOf x = signOf y) : lt (mul x y) 0#64 = false := by
  unfold mul
  rw [h, bne_self_eq_false]
  split
  · exact not_lt_zero_quietNaN
  · split
    · split
      · exact not_lt_zero_quietNaN
      · exact not_lt_zero_pack_false (by decide)
    · exact not_lt_zero_pack_false (roundMag_lt _ _)

theorem magnitude_of_magBits_eq_zero {x : Pattern} (h : magBits x = 0) : magnitude x = 0 := by
  simp [magnitude, h]

/-- A product with a zero is not below zero, finite or not. -/
theorem not_lt_zero_mul_of_zero {x : Pattern} (y : Pattern) (h : magBits x = 0) : lt (mul x y) 0#64 = false := by
  unfold mul
  split
  · exact not_lt_zero_quietNaN
  · split
    · rw [if_pos (.inl h)]
      exact not_lt_zero_quietNaN
    · rw [magnitude_of_magBits_eq_zero h, Nat.zero_mul, roundMag_zero]
      exact not_lt_zero_pack_zero _

theorem signOf_of_lt_zero {x : Pattern} (h : lt x 0#64 = true) : signOf x = true := by
  have hkey := key_lt_of_lt h
  rw [key_zero, key] at hkey
  by_contra hs
  rw [if_neg hs] at hkey
  omega

/-- A number equal to 0 is one of the two zeros. -/
theorem magBits_of_eq_zero {x : Pattern} (h : Binary64.eq x 0#64 = true) : magBits x = 0 := by
  have hkey := key_eq_of_eq h
  rw [← natAbs_key, hkey]
  decide

/-! ### The square -/

/-- Settles O25: a square has the sign + of equal signs, and a zero has magnitude 0. -/
theorem squareIsNeverNegative : Obligations.SquareIsNeverNegative := by
  intro s t y hd h hy
  obtain ⟨hx, hq, rfl⟩ := execSqr_next h
  rw [ops_of_binary64 hd] at hx hq hy
  obtain ⟨a, ha, hfin⟩ := ops_isFinite_iff.1 hx
  have hport : s.port.op0 = .bits a := ha
  rw [ha, ops_mul_bits] at hq hy
  obtain rfl : NumVal.bits (mul a a) = y := Option.some.inj hy
  constructor
  · have hkey : ¬ key (mul a a) < key 0#64 := fun hlt =>
      Bool.eq_false_iff.1 (not_lt_zero_mul rfl) ((lt_iff_of_finite hq (by decide)).2 hlt)
    exact (le_iff_of_finite (by decide) hq).2 (Int.not_lt.1 hkey)
  · intro hzero
    rw [hport, ops_eq_bits] at hzero
    rw [mul_eq hfin hfin, magnitude_of_magBits_eq_zero (magBits_of_eq_zero hzero), Nat.zero_mul, roundMag_zero,
      bne_self_eq_false]
    rfl

/-! ### The peak test -/

theorem ops_lt_zero_iff {x : NumVal} :
    Binary64.ops.lt x Binary64.ops.zero = true ↔ ∃ a, x = .bits a ∧ lt a 0#64 = true := by
  rw [ops_zero]
  cases x with
  | bits a => simp
  | code n => exact iff_of_false Bool.false_ne_true fun ⟨_, ha, _⟩ => NumVal.noConfusion ha

theorem ops_eq_zero_iff {x : NumVal} :
    Binary64.ops.eq x (.bits 0#64) = true ↔ ∃ a, x = .bits a ∧ Binary64.eq a 0#64 = true := by
  cases x with
  | bits a => simp
  | code n => exact iff_of_false Bool.false_ne_true fun ⟨_, ha, _⟩ => NumVal.noConfusion ha

/-- Two falling slopes in a row have a product that is not below zero (42_bitsync_demod.md R158). -/
theorem no_peak_after_falling {last slope : NumVal} (h : Binary64.ops.lt last Binary64.ops.zero = true) :
    peakDetected Binary64.ops slope (Binary64.ops.mul last slope) = false := by
  refine Bool.eq_false_iff.2 fun hpeak => ?_
  obtain ⟨hslope, hprod⟩ := (peakDetected_iff _ _ _).1 hpeak
  obtain ⟨a, rfl, ha⟩ := ops_lt_zero_iff.1 h
  obtain ⟨b, rfl, hb⟩ := ops_lt_zero_iff.1 hslope
  obtain ⟨q, hq, hneg⟩ := ops_lt_zero_iff.1 hprod
  cases hq
  rw [not_lt_zero_mul ((signOf_of_lt_zero ha).trans (signOf_of_lt_zero hb).symm)] at hneg
  cases hneg

/-- A zero slope, last or present, is no peak (42_bitsync_demod.md R153). -/
theorem no_peak_of_zero {last slope : NumVal}
    (h : Binary64.ops.eq last (.bits 0#64) = true ∨ Binary64.ops.eq slope (.bits 0#64) = true) :
    peakDetected Binary64.ops slope (Binary64.ops.mul last slope) = false := by
  refine Bool.eq_false_iff.2 fun hpeak => ?_
  obtain ⟨hslope, hprod⟩ := (peakDetected_iff _ _ _).1 hpeak
  obtain ⟨b, rfl, hb⟩ := ops_lt_zero_iff.1 hslope
  obtain hlast | hzero := h
  · obtain ⟨a, rfl, ha⟩ := ops_eq_zero_iff.1 hlast
    obtain ⟨q, hq, hneg⟩ := ops_lt_zero_iff.1 hprod
    cases hq
    rw [not_lt_zero_mul_of_zero b (magBits_of_eq_zero ha)] at hneg
    cases hneg
  · have hkey := key_eq_of_eq hzero
    exact absurd (key_lt_of_lt hb) (by rw [hkey]; exact Int.lt_irrefl _)

/-- A SYNC that detects no peak updates the history only (42_bitsync_demod.md R153). -/
theorem eq_updateHistory_of_no_peak {s t : State} (h : execSync s = .next t) (hd : s.cfg.domain = .binary64)
    (hno : peakDetected Binary64.ops (Binary64.ops.sub (operandSync s) s.bs.lastSync)
      (Binary64.ops.mul s.bs.lastSlope (Binary64.ops.sub (operandSync s) s.bs.lastSync)) = false) :
    t = updateHistory (clearResp s) (operandMf s) (operandSync s)
      (Binary64.ops.sub (operandSync s) s.bs.lastSync) := by
  have hcases := execSync_cases h
  simp only [syncProd, syncSlope, ops_of_binary64 hd, hno] at hcases
  obtain ⟨-, ht⟩ | ⟨hpeak, -⟩ := hcases
  · exact ht
  · cases hpeak

/-- Settles O29: the first SYNC leaves a falling slope, after which none peaks. -/
theorem noPeaksOnConsecutiveSyncs : Obligations.NoPeaksOnConsecutiveSyncs := by
  intro s t u c hd h hbit h'
  have hd' : t.cfg.domain = .binary64 := by rw [(exec_bookkeeping h).1, hd]
  have hcases := execSync_cases h
  simp only [syncProd, syncSlope, ops_of_binary64 hd] at hcases
  obtain ⟨-, rfl⟩ | ⟨hpeak, rfl⟩ := hcases
  · exact absurd rfl hbit
  · have hfalling := ((peakDetected_iff _ _ _).1 hpeak).1
    rw [eq_updateHistory_of_no_peak h' hd' (no_peak_after_falling hfalling)]
    rfl

/-- Settles O30: a zero slope is no peak, and the last slope of a constructed core is num(0). -/
theorem zeroSlopeNeverDetects : Obligations.ZeroSlopeNeverDetects := by
  constructor
  · intro s t hd h hzero
    have hslope : t.bs.lastSlope = Binary64.ops.sub (operandSync s) s.bs.lastSync := by
      rw [(syncUpdatesHistory s t h).2.1, hd]
      rfl
    rw [eq_updateHistory_of_no_peak h hd (no_peak_of_zero (hslope ▸ hzero))]
    exact ⟨rfl, rfl, rfl⟩
  · intro c k t hd h
    have hlast : Binary64.ops.eq (numOpsOf c.domain).zero (.bits 0#64) = true := by
      rw [hd]
      exact congrArg (fun z => Binary64.ops.eq z (.bits 0#64)) ops_zero
    rw [eq_updateHistory_of_no_peak h hd (no_peak_of_zero (.inl hlast))]
    rfl

end Sys2Proof.Machine
end

section
/-! The configured SINCOS is finite on finite arguments, and exact at num(0) (41_carrier_tracker.md R131). -/

namespace Sys2Proof.Machine.Sincos

open Binary64

/-- Each term of the alternating series is taken away from the one before, so the sum is at most its first
term. -/
theorem series_le (fuel n t x2 : Nat) : series fuel n t x2 ≤ t := by
  cases fuel with
  | zero => exact Nat.zero_le t
  | succ fuel => exact Nat.sub_le _ _

/-- The remainder of the quarter-turn reduction lies below a quarter turn, so below 2. -/
theorem reduce_remainder_le (m : Nat) : (reduce m).2 ≤ 2 * 2 ^ fracBits := by
  have hlt : ∀ x, x % (piFixed / 2) ≤ piFixed / 2 := fun x => (Nat.mod_lt x (by decide +kernel)).le
  have hquarter : piFixed / 2 / 2 ^ (1600 - fracBits) ≤ 2 * 2 ^ fracBits := by decide +kernel
  exact (Nat.div_le_div_right (hlt _)).trans hquarter

/-- A fixed-point magnitude up to 2 rounds to a finite number. -/
theorem isFinite_rounded (b : Bool) {v : Nat} (h : v ≤ 2 * 2 ^ fracBits) : isFinite (rounded b v) = true := by
  have hmono : roundMag (v * 2 ^ 1074) (2 ^ fracBits) ≤ roundMag (2 * 2 ^ fracBits * 2 ^ 1074) (2 ^ fracBits) :=
    roundMag_mono (Nat.two_pow_pos _) (Nat.two_pow_pos _)
      (Nat.mul_le_mul_right _ (Nat.mul_le_mul_right _ h))
  have htwo : roundMag (2 * 2 ^ fracBits * 2 ^ 1074) (2 ^ fracBits) < infBits := by decide +kernel
  rw [isFinite_iff, rounded, magBits_pack b (roundMag_lt _ _)]
  exact Nat.lt_of_le_of_lt hmono htwo

theorem isFinite_reference {x : Pattern} (h : isFinite x = true) :
    isFinite (reference x).1 = true ∧ isFinite (reference x).2 = true := by
  simp only [reference, h, Bool.not_true, Bool.false_eq_true, if_false]
  split
  · exact ⟨h, show isFinite 0x3FF0000000000000#64 = true by decide⟩
  · have hs : ∀ b x2, isFinite (rounded b (series 48 1 (reduce (magnitude x)).2 x2)) = true := fun b x2 =>
      isFinite_rounded b ((series_le _ _ _ _).trans (reduce_remainder_le _))
    have hc : ∀ b x2, isFinite (rounded b (series 48 0 (2 ^ fracBits) x2)) = true := fun b x2 =>
      isFinite_rounded b ((series_le _ _ _ _).trans (Nat.le_mul_of_pos_left _ (by decide)))
    split
    · exact ⟨hs _ _, hc _ _⟩
    · exact ⟨hc _ _, hs _ _⟩
    · exact ⟨hs _ _, hc _ _⟩
    · exact ⟨hc _ _, hs _ _⟩

/-- A zero argument lies below the bound under which sine and cosine round to the argument and 1. -/
theorem reference_zero : reference 0#64 = (0#64, 0x3FF0000000000000#64) := by decide +kernel

end Sys2Proof.Machine.Sincos

namespace Sys2Proof.Machine

open Binary64

theorem keepFinitePair_finite {N : NumOps} {x : NumVal} (h : N.isFinite x = true) (v : NumVal × NumVal) :
    N.isFinite (keepFinitePair N x v).1 = true ∧ N.isFinite (keepFinitePair N x v).2 = true :=
  ⟨keepFinite_finite h v.1, keepFinite_finite h v.2⟩

/-- Keeping finite replaces the argument itself by itself. -/
theorem keepFinite_self (N : NumOps) (x : NumVal) : keepFinite N x x = x := by
  unfold keepFinite
  split <;> rfl

theorem sincosOf_finite {c : Config} {x : NumVal} (h : (numOpsOf c.domain).isFinite x = true) :
    (numOpsOf c.domain).isFinite (sincosOf c x).1 = true ∧ (numOpsOf c.domain).isFinite (sincosOf c x).2 = true := by
  cases hd : c.domain with
  | binary64 =>
    rw [hd] at h
    cases hs : c.sincos with
    | reference =>
      obtain ⟨a, rfl, ha⟩ := ops_isFinite_iff.1 h
      simp only [sincosOf, hd, hs]
      exact Sincos.isFinite_reference ha
    | uninterpreted j =>
      simp only [sincosOf, hd, hs]
      exact keepFinitePair_finite h _
  | uninterpreted k =>
    rw [hd] at h
    cases hs : c.sincos with
    | reference =>
      simp only [sincosOf, hd, hs]
      exact keepFinitePair_finite h _
    | uninterpreted j =>
      simp only [sincosOf, hd, hs]
      exact keepFinitePair_finite h _

theorem sincosOf_zero {c : Config} (hs : c.sincos = .reference)
    (h : (numOpsOf c.domain).isFinite (numOpsOf c.domain).one = true) :
    sincosOf c (numOpsOf c.domain).zero = ((numOpsOf c.domain).zero, (numOpsOf c.domain).one) := by
  cases hd : c.domain with
  | binary64 =>
    simp only [sincosOf, hd, hs, numOpsOf, ops_zero, ops_one, binary64Sincos, Sincos.reference_zero]
  | uninterpreted k =>
    rw [hd] at h
    have hone : (freeNumOps k).isFinite (freeNumOps k).one = true := h
    simp only [sincosOf, hd, hs, numOpsOf, otherReferenceSincos, if_true, keepFinitePair, keepFinite_self,
      keepFinite_of_finite _ hone]

/-- Settles O58: the reference series are bounded, and any other pair is kept finite. -/
theorem sincosIsFiniteOnFinite : Obligations.SincosIsFiniteOnFinite :=
  fun _ => ⟨fun _ => sincosOf_finite, sincosOf_zero⟩

end Sys2Proof.Machine
end

section
/-! The wrap of a phase already in the turn (41_carrier_tracker.md R132), every rounding counted. -/

namespace Sys2Proof.Machine

open Binary64

/-- Dividing a phase in the turn by TWO_PI gives less than 1, even rounded: the largest such phase gives the
predecessor of 1. -/
theorem magBits_div_twoPi_lt {a : Pattern} (h0 : isFinite a = true)
    (h2 : magBits a < magBits twoPiPat) :
    magBits (div a twoPiPat) < magBits onePat := by
  have hmag : magnitude a ≤ magnitude 0x401921FB54442D17#64 :=
    (magnitude_le_iff h0 (by decide)).2 (by
      have : magBits twoPiPat = magBits 0x401921FB54442D17#64 + 1 := by decide
      omega)
  have hmono : roundMag (magnitude a * 2 ^ 1074) (magnitude twoPiPat) ≤
      roundMag (magnitude 0x401921FB54442D17#64 * 2 ^ 1074) (magnitude twoPiPat) :=
    roundMag_mono (by decide +kernel) (by decide +kernel)
      (Nat.mul_le_mul_right _ (Nat.mul_le_mul_right _ hmag))
  rw [magBits_div h0 (by decide) (by decide)]
  exact Nat.lt_of_le_of_lt hmono (by decide +kernel)

theorem scaled_le_magnitude (x : Pattern) : scaled x ≤ magnitude x := by
  unfold scaled
  split <;> omega

/-- A magnitude of 0 is neither sign. -/
theorem scaled_eq_zero {x : Pattern} (h : magBits x = 0) : scaled x = 0 := by
  rw [← Int.natAbs_eq_zero, natAbs_scaled, magnitude_of_magBits_eq_zero h]

theorem scaled_of_not_signOf {x : Pattern} (h : signOf x = false) : scaled x = magnitude x := by
  simp [scaled, h]

/-- The floor of a value from 0 up to 1 is a zero. -/
theorem magBits_floor_eq_zero {x : Pattern} (h0 : 0 ≤ scaled x)
    (h1 : magBits x < magBits onePat) : magBits (Binary64.floor x) = 0 := by
  have hx : isFinite x = true := isFinite_iff.2 (Nat.lt_trans h1 (by decide))
  have hone : magnitude onePat = 2 ^ 1074 := by decide +kernel
  have hlt : magnitude x < 2 ^ 1074 := by
    rw [← hone]
    exact Nat.lt_of_not_le fun hle => Nat.not_le.2 h1 ((magnitude_le_iff (by decide) hx).1 hle)
  have hdiv : scaled x / (2 ^ 1074 : Int) = 0 :=
    Int.ediv_eq_zero_of_lt h0 (Int.lt_of_le_of_lt (scaled_le_magnitude x) (by exact_mod_cast hlt))
  unfold Binary64.floor
  rw [if_pos hx]
  simp only [hdiv, Int.natAbs_zero, Nat.zero_mul, roundMag_zero]
  exact magBits_pack _ (by decide)

/-- A phase in the turn has no whole turn to take off. -/
theorem magBits_turns_eq_zero {a : Pattern} (ha : isFinite a = true) (h0 : 0 ≤ key a)
    (h2 : key a < key twoPiPat) :
    magBits (wholeTurns a) = 0 := by
  have hdiv : magBits (div a twoPiPat) < magBits onePat := by
    refine magBits_div_twoPi_lt ha ?_
    have := natAbs_key a
    have : key twoPiPat = magBits twoPiPat := by decide
    omega
  have hsign : signOf (div a twoPiPat) = signOf a := by
    rw [signOf_div ha (by decide) (by decide)]
    exact Bool.xor_false _
  have hscaled : 0 ≤ scaled (div a twoPiPat) := by
    cases hs : signOf a with
    | false =>
      rw [scaled_of_not_signOf (hsign.trans hs)]
      exact Int.natCast_nonneg _
    | true =>
      have hzero : magBits a = 0 := by
        rw [key, if_pos hs] at h0
        omega
      refine (scaled_eq_zero ?_).ge
      rw [magBits_div ha (by decide) (by decide), magnitude_of_magBits_eq_zero hzero, Nat.zero_mul, roundMag_zero]
  have hfloor := magBits_floor_eq_zero hscaled hdiv
  have hfin : isFinite (Binary64.floor (div a twoPiPat)) = true :=
    isFinite_iff.2 (by rw [hfloor]; decide)
  rw [wholeTurns, magBits_mul (by decide) hfin, magnitude_of_magBits_eq_zero hfloor, Nat.mul_zero, roundMag_zero]

/-- Settles O21: no whole turn is taken off, so the remainder has the phase's place in the order and the wrap
returns the phase. -/
theorem wrapKeepsAPhaseInTheTurn : Obligations.WrapKeepsAPhaseInTheTurn := by
  intro p h0 h2
  obtain ⟨a, rfl, ha⟩ := ops_isFinite_iff.1 (isFinite_of_inTurn h0 h2)
  obtain ⟨hna, hlow, hhigh⟩ := inTurn_iff.1 ⟨h0, h2⟩
  have hturns := magBits_turns_eq_zero ha hlow hhigh
  have hfin : isFinite (wholeTurns a) = true :=
    isFinite_iff.2 (by rw [hturns]; decide)
  have hkey := key_sub ha hfin
  have hnan := isNaN_wrap_remainder ha
  rw [scaled_eq_zero hturns, Int.sub_zero, roundKey_scaled ha] at hkey
  generalize hr : sub a (wholeTurns a) = r at hkey hnan
  have hin : (lt r 0#64 || le twoPiPat r) = false :=
    (outOfTurn_eq_false_iff hnan).2 (hkey ▸ ⟨hlow, hhigh⟩)
  rw [wrap_bits hr, hin, if_pos (eq_iff.2 ⟨hnan, hna, hkey⟩)]
  rfl

end Sys2Proof.Machine
end

section
/-! The fast arctangent on the axes (41_carrier_tracker.md R128, R129) and within its bounds (R123, R127 to
R130), every rounding counted. -/

namespace Sys2Proof.Machine

open Binary64

/-! ### The approximation in patterns -/

/-- `1 + K_ATAN * z * z` (41_carrier_tracker.md R129). -/
def smallDenominator (z : Pattern) : Pattern := add onePat (mul (mul kAtanPat z) z)

/-- `z * z + K_ATAN` (41_carrier_tracker.md R130). -/
def largeDenominator (z : Pattern) : Pattern := add (mul z z) kAtanPat

/-- `z / (1 + K_ATAN * z * z)`, the approximation for a small quotient (41_carrier_tracker.md R129). -/
def smallAngle (z : Pattern) : Pattern := div z (smallDenominator z)

/-- `PI_2 - z / (z * z + K_ATAN)`, the approximation for a large quotient (41_carrier_tracker.md R130). -/
def largeAngle (z : Pattern) : Pattern := sub halfPiPat (div z (largeDenominator z))

theorem fastAtan2_small {a b : Pattern} (hb : Binary64.eq b 0#64 = false)
    (hz : lt (Binary64.abs (div a b)) onePat = true) :
    fastAtan2 Binary64.ops (.bits a) (.bits b) = .bits (if lt b 0#64 = true then
      (if lt a 0#64 = true then sub (smallAngle (div a b)) piPat else add (smallAngle (div a b)) piPat)
      else smallAngle (div a b)) := by
  simp only [fastAtan2, ops_zero, ops_one, ops_kAtan, ops_pi, ops_eq_bits, ops_div_bits, ops_abs_bits, ops_lt_bits,
    ops_mul_bits, ops_add_bits, ops_sub_bits, hb, hz, Bool.false_eq_true, if_false, if_true, apply_ite NumVal.bits,
    smallAngle, smallDenominator]

theorem fastAtan2_large {a b : Pattern} (hb : Binary64.eq b 0#64 = false)
    (hz : lt (Binary64.abs (div a b)) onePat = false) :
    fastAtan2 Binary64.ops (.bits a) (.bits b) = .bits (if lt a 0#64 = true then
      sub (largeAngle (div a b)) piPat else largeAngle (div a b)) := by
  simp only [fastAtan2, ops_zero, ops_one, ops_kAtan, ops_pi, ops_piHalf, ops_eq_bits, ops_div_bits, ops_abs_bits,
    ops_lt_bits, ops_mul_bits, ops_add_bits, ops_sub_bits, hb, hz, Bool.false_eq_true, if_false,
    apply_ite NumVal.bits, largeAngle, largeDenominator]

/-- On the vertical axis the sign of `y` decides (41_carrier_tracker.md R128). -/
theorem fastAtan2_vertical {y x : NumVal} (hx : Binary64.ops.eq x (.bits 0#64) = true) :
    fastAtan2 Binary64.ops y x =
      if Binary64.ops.lt (.bits 0#64) y = true then Binary64.ops.piHalf
      else if Binary64.ops.eq y (.bits 0#64) = true then .bits 0#64 else Binary64.ops.neg Binary64.ops.piHalf := by
  simp only [fastAtan2, ops_zero, hx, if_true]

/-- The test for a small quotient, for one that is a number. -/
theorem lt_abs_one_iff {z : Pattern} (h : isNaN z = false) :
    lt (Binary64.abs z) onePat = true ↔ magBits z < magBits onePat := by
  have hnan : isNaN (Binary64.abs z) = false := by
    rw [isNaN, Binary64.abs, magBits_pack _ (magBits_lt z)]
    exact h
  have hone : isNaN onePat = false ∧
      key onePat = magBits onePat := by decide
  rw [lt_iff, hnan, hone.1, hone.2, Binary64.abs, key_pack _ (magBits_lt z)]
  simp

/-- A number other than the zeros has a magnitude. -/
theorem magBits_ne_zero {x : Pattern} (hx : isFinite x = true) (h : Binary64.eq x 0#64 = false) :
    magBits x ≠ 0 := by
  intro h0
  refine Bool.eq_false_iff.1 h (eq_iff.2 ⟨isNaN_of_isFinite hx, by decide, ?_⟩)
  rw [key_zero, ← Int.natAbs_eq_zero, natAbs_key, h0]

theorem eq_zero_of_lt_zero {x : Pattern} (h : lt x 0#64 = true) : Binary64.eq x 0#64 = false :=
  Bool.eq_false_iff.2 fun heq => Int.ne_of_lt (key_lt_of_lt h) (key_eq_of_eq heq)

theorem not_lt_zero_of_eq_zero {x : Pattern} (h : Binary64.eq x 0#64 = true) : lt x 0#64 = false :=
  Bool.eq_false_iff.2 fun hlt => Int.ne_of_lt (key_lt_of_lt hlt) (key_eq_of_eq h)

/-- A zero over a number that is not 0 is a zero. -/
theorem div_zero_eq {a b : Pattern} (ha : isFinite a = true) (ha0 : magBits a = 0) (hb : isFinite b = true)
    (hb0 : magBits b ≠ 0) : ∃ s, div a b = pack s 0 := by
  rw [div_eq ha hb hb0, magnitude_of_magBits_eq_zero ha0, Nat.zero_mul, roundMag_zero]
  exact ⟨_, rfl⟩

/-- A zero of either sign gives PI on the negative real axis. -/
theorem add_smallAngle_zero_pi (s : Bool) :
    add (smallAngle (pack s 0)) piPat = piPat := by
  revert s
  decide +kernel

/-- Settles O19: the vertical axis is a case of its own, and on the negative real axis the quotient is a
zero. -/
theorem fastAtan2OnTheAxes : Obligations.FastAtan2OnTheAxes := by
  intro y x hy hx
  refine ⟨fastAtan2_vertical, fun hneg hzero => ?_⟩
  obtain ⟨a, rfl, ha⟩ := ops_isFinite_iff.1 hy
  obtain ⟨b, rfl, hb⟩ := ops_isFinite_iff.1 hx
  have hneg' : lt b 0#64 = true := hneg
  have hb0 := eq_zero_of_lt_zero hneg'
  obtain ⟨s, hz⟩ := div_zero_eq ha (magBits_of_eq_zero hzero) hb (magBits_ne_zero hb hb0)
  have habs : ∀ s, lt (Binary64.abs (pack s 0)) onePat = true := by decide
  have hsmall : lt (Binary64.abs (div a b)) onePat = true := hz ▸ habs s
  rw [fastAtan2_small hb0 hsmall, if_pos hneg', not_lt_zero_of_eq_zero hzero, hz, add_smallAngle_zero_pi]
  rfl

/-! ### The bounds -/

/-- An exact multiple by `m / k`, at most 1, rounds to no more than the whole. -/
theorem roundMag_mul_le {m k : Nat} (n : Nat) (hk : 0 < k) (h : m ≤ k) : roundMag (m * n) k ≤ roundMag n 1 :=
  roundMag_mono hk Nat.one_pos (by rw [Nat.mul_one, Nat.mul_comm n k]; exact Nat.mul_le_mul_right n h)

/-- An exact multiple by `m / k`, at least 1, rounds to no less than the whole. -/
theorem le_roundMag_mul {m k : Nat} (n : Nat) (hk : 0 < k) (h : k ≤ m) : roundMag n 1 ≤ roundMag (m * n) k :=
  roundMag_mono Nat.one_pos hk (by rw [Nat.mul_one, Nat.mul_comm n k]; exact Nat.mul_le_mul_right n h)

theorem magnitude_one : magnitude onePat = 2 ^ 1074 := by decide +kernel

theorem isFinite_of_le_one {x : Pattern} (h : magBits x ≤ magBits onePat) : isFinite x = true :=
  isFinite_iff.2 (Nat.lt_of_le_of_lt h (by decide))

/-- A product by a number that is at most 1 is no larger than the other factor. -/
theorem magBits_mul_le {x y : Pattern} (hx : magBits x ≤ magBits onePat)
    (hy : isFinite y = true) : magBits (mul x y) ≤ magBits y := by
  have hfx := isFinite_of_le_one hx
  rw [magBits_mul hfx hy, ← roundMag_magnitude hy, ← magnitude_one]
  exact roundMag_mul_le _ (by decide +kernel) ((magnitude_le_iff hfx (by decide)).2 hx)

/-- A product by a number that is at least 1 is no smaller than the other factor. -/
theorem le_magBits_mul {x y : Pattern} (hfx : isFinite x = true)
    (hx : magBits onePat ≤ magBits x) (hy : isFinite y = true) : magBits y ≤ magBits (mul x y) := by
  rw [magBits_mul hfx hy, ← roundMag_magnitude hy, ← magnitude_one]
  exact le_roundMag_mul _ (by decide +kernel) ((magnitude_le_iff (by decide) hfx).2 hx)

/-- A quotient by a number that is at least 1 is no larger than the dividend. -/
theorem magBits_div_le {x y : Pattern} (hx : isFinite x = true) (hfy : isFinite y = true)
    (hy : magBits onePat ≤ magBits y) : magBits (div x y) ≤ magBits x := by
  have hmag := (magnitude_le_iff (by decide) hfy).2 hy
  have hpos : 0 < magnitude onePat := by decide +kernel
  have hone := magBits_onePat_pos
  rw [magBits_div hx hfy (by omega), ← roundMag_magnitude hx, ← magnitude_one, Nat.mul_comm]
  exact roundMag_mul_le _ (Nat.lt_of_lt_of_le hpos hmag) hmag

/-- A quotient by a number that is no smaller than the dividend is at most 1. -/
theorem magBits_div_le_one {x y : Pattern} (hx : isFinite x = true) (hy : isFinite y = true)
    (hy0 : magBits y ≠ 0) (h : magBits x ≤ magBits y) : magBits (div x y) ≤ magBits onePat := by
  have hone : isFinite onePat = true := by decide
  have hpos : 0 < magnitude y := by
    refine Nat.pos_of_ne_zero fun h0 => hy0 ?_
    rw [← roundMag_magnitude hy, h0, roundMag_zero]
  rw [magBits_div hx hy hy0, ← roundMag_magnitude hone, ← magnitude_one]
  exact roundMag_mul_le _ hpos ((magnitude_le_iff hx hy).2 h)

/-- A number that is at most 1, as an exact value. -/
theorem scaled_mem_one {x : Pattern} (h : magBits x ≤ magBits onePat) :
    -scaled onePat ≤ scaled x ∧ scaled x ≤ scaled onePat := by
  have hmag := (magnitude_le_iff (isFinite_of_le_one h) (by decide)).2 h
  have := natAbs_scaled x
  have : scaled onePat = magnitude onePat := scaled_of_not_signOf (by decide)
  omega

theorem signOf_of_key_pos {x : Pattern} (h : 0 < key x) : signOf x = false := by
  refine Bool.eq_false_iff.2 fun hs => ?_
  rw [key, if_pos hs] at h
  omega

/-- The denominator of the small approximation, 1 plus a product of three factors that is not negative,
lies between 1 and 2. -/
theorem smallDenominator_between {z : Pattern} (hz : magBits z ≤ magBits onePat) :
    key onePat ≤ key (smallDenominator z) ∧ key (smallDenominator z) ≤ key 0x4000000000000000#64 := by
  have hfz := isFinite_of_le_one hz
  have hkz : magBits (mul kAtanPat z) ≤ magBits onePat :=
    (magBits_mul_le (by decide) hfz).trans hz
  have hkzz : magBits (mul (mul kAtanPat z) z) ≤ magBits onePat :=
    (magBits_mul_le hkz hfz).trans hz
  have hsign : signOf (mul (mul kAtanPat z) z) = false := by
    rw [signOf_mul (isFinite_of_le_one hkz) hfz, signOf_mul (by decide) hfz]
    cases signOf z <;> rfl
  have hpos : 0 ≤ scaled (mul (mul kAtanPat z) z) := by
    rw [scaled_of_not_signOf hsign]
    exact Int.natCast_nonneg _
  have hle := (scaled_mem_one hkzz).2
  have htwo : scaled 0x4000000000000000#64 = scaled onePat + scaled onePat := by
    decide +kernel
  rw [smallDenominator, key_add (by decide) (isFinite_of_le_one hkzz)]
  exact roundKey_between (by decide) (by decide) (by omega) (by omega)

/-- The small approximation divides by at least 1: it is no larger than its quotient and has its sign. -/
theorem smallAngle_spec {z : Pattern} (hz : magBits z ≤ magBits onePat) :
    magBits (smallAngle z) ≤ magBits z ∧ signOf (smallAngle z) = signOf z := by
  obtain ⟨hlow, hhigh⟩ := smallDenominator_between hz
  unfold smallAngle
  generalize smallDenominator z = d at hlow hhigh
  have hfz := isFinite_of_le_one hz
  have hfd := isFinite_of_between (by decide) (by decide) hlow hhigh
  have hone : key onePat = magBits onePat := by decide
  have hpos := magBits_onePat_pos
  have := natAbs_key d
  have hd : magBits onePat ≤ magBits d := by omega
  refine ⟨magBits_div_le hfz hfd hd, ?_⟩
  rw [signOf_div hfz hfd (by omega), signOf_of_key_pos (x := d) (by omega)]
  exact Bool.xor_false _

/-- The denominator of the large approximation is at least the quotient, or too large for the domain. -/
theorem largeDenominator_cases {z : Pattern} (hz : isFinite z = true)
    (hone : magBits onePat ≤ magBits z) :
    isInf (largeDenominator z) = true ∨
      (isFinite (largeDenominator z) = true ∧ magBits z ≤ magBits (largeDenominator z)) := by
  have hsq : magBits z ≤ magBits (mul z z) := le_magBits_mul hz hone hz
  have hpos : key (mul z z) = magBits (mul z z) := by
    rw [key, signOf_mul hz hz, bne_self_eq_false, if_neg Bool.false_ne_true]
  have hnan : isNaN (mul z z) = false :=
    isNaN_mul hz (Nat.lt_of_lt_of_le magBits_onePat_pos hone).ne' (isNaN_of_isFinite hz)
  obtain hfin | hinf := isFinite_or_isInf hnan
  · have hk : 0 ≤ scaled kAtanPat := by decide +kernel
    have hd : key (mul z z) ≤ key (largeDenominator z) := by
      rw [largeDenominator, key_add hfin (by decide), ← roundKey_scaled hfin]
      exact roundKey_mono (by omega)
    have := natAbs_key (largeDenominator z)
    exact (isFinite_or_isInf (isNaN_add hfin (by decide))).symm.imp id fun h => ⟨h, by omega⟩
  · refine .inl ?_
    have hk : isNaN kAtanPat = false ∧ isInf kAtanPat = false := by decide
    simp only [largeDenominator, add, hnan, hk, hinf, Bool.or_false, Bool.false_eq_true, if_false, if_true,
      Bool.false_and]

/-- The large approximation takes from PI_2 at most 1, of either sign. -/
theorem magBits_largeQuotient_le {z : Pattern} (hz : isFinite z = true)
    (hone : magBits onePat ≤ magBits z) :
    magBits (div z (largeDenominator z)) ≤ magBits onePat := by
  obtain hinf | ⟨hfin, hle⟩ := largeDenominator_cases hz hone
  · generalize largeDenominator z = d at hinf
    have hd : isNaN d = false := by
      rw [isNaN, of_decide_eq_true hinf]
      decide
    simp only [div, isNaN_of_isFinite hz, isInf_of_isFinite hz, hd, hinf, Bool.or_false, Bool.false_eq_true, if_false,
      if_true]
    rw [magBits_pack _ (by decide)]
    exact Nat.zero_le _
  · have hpos := magBits_onePat_pos
    exact magBits_div_le_one hz hfin (by omega) hle

/-- The large approximation lies between 0 and PI. -/
theorem largeAngle_between {z : Pattern} (hz : isFinite z = true)
    (hone : magBits onePat ≤ magBits z) :
    key 0#64 ≤ key (largeAngle z) ∧ key (largeAngle z) ≤ key piPat := by
  have hw := magBits_largeQuotient_le hz hone
  obtain ⟨hlow, hhigh⟩ := scaled_mem_one hw
  have hclosed : scaled onePat ≤ scaled halfPiPat ∧
      scaled halfPiPat + scaled onePat ≤ scaled piPat ∧
      scaled 0#64 = 0 := by decide +kernel
  unfold largeAngle
  rw [key_sub (by decide) (isFinite_of_le_one hw)]
  exact roundKey_between (by decide) (by decide) (by omega) (by omega)

theorem eq_of_isInf {x : Pattern} (h : isInf x = true) :
    x = 0x7FF0000000000000#64 ∨ x = 0xFFF0000000000000#64 := by
  have hmag : x.toNat % 2 ^ 63 = 0x7FF0000000000000 := of_decide_eq_true h
  have hlt := x.isLt
  have hcases : x.toNat = 0x7FF0000000000000 ∨ x.toNat = 0xFFF0000000000000 := by omega
  exact hcases.imp (fun h => BitVec.eq_of_toNat_eq h) fun h => BitVec.eq_of_toNat_eq h

/-- An infinite quotient has no approximation: infinity over infinity is a NaN, and so is all that follows. -/
theorem largeAngle_of_isInf {z : Pattern} (hz : isInf z = true) :
    isFinite (largeAngle z) = false ∧ isFinite (sub (largeAngle z) piPat) = false := by
  obtain rfl | rfl := eq_of_isInf hz
  · decide +kernel
  · decide +kernel

/-- A sum that lies exactly in [-PI, PI] is rounded to a number there. -/
theorem add_within_pi {x y : Pattern} (hx : isFinite x = true) (hy : isFinite y = true)
    (hlow : -scaled piPat ≤ scaled x + scaled y)
    (hhigh : scaled x + scaled y ≤ scaled piPat) :
    le (neg piPat) (add x y) = true ∧ le (add x y) piPat = true := by
  rw [← scaled_neg] at hlow
  obtain ⟨hl, hh⟩ := roundKey_between (l := neg piPat) (by decide) (by decide) hlow hhigh
  rw [← key_add hx hy] at hl hh
  have hfin := isFinite_of_between (by decide) (by decide) hl hh
  exact ⟨(le_iff_of_finite (by decide) hfin).2 hl, (le_iff_of_finite hfin (by decide)).2 hh⟩

theorem sub_within_pi {x : Pattern} (hx : isFinite x = true) (hlow : 0 ≤ scaled x)
    (hhigh : scaled x ≤ scaled piPat) :
    le (neg piPat) (sub x piPat) = true ∧
      le (sub x piPat) piPat = true :=
  add_within_pi hx (by decide) (by rw [scaled_neg]; omega) (by rw [scaled_neg]; omega)

theorem scaled_one_le_pi : scaled onePat ≤ scaled piPat := by decide +kernel

theorem within_pi {x : Pattern} (hx : isFinite x = true)
    (hlow : -scaled piPat ≤ scaled x) (hhigh : scaled x ≤ scaled piPat) :
    le (neg piPat) x = true ∧ le x piPat = true := by
  rw [← scaled_neg] at hlow
  exact ⟨(le_iff_of_finite (by decide) hx).2 ((key_le_iff (by decide) hx).2 hlow),
    (le_iff_of_finite hx (by decide)).2 ((key_le_iff hx (by decide)).2 hhigh)⟩

theorem magBits_eq_zero_of_not_lt_zero {x : Pattern} (hx : isFinite x = true) (h : ¬ lt x 0#64 = true)
    (hs : signOf x = true) : magBits x = 0 := by
  rw [lt_iff_of_finite hx (by decide), key_zero, key, if_pos hs] at h
  omega

/-- The small approximation where PI is added to it: the quotient of a `y` that is not negative by a negative
`x` is not positive. -/
theorem scaled_smallAngle_nonpos {a b : Pattern} (ha : isFinite a = true) (hb : isFinite b = true)
    (hbneg : lt b 0#64 = true) (hapos : ¬ lt a 0#64 = true)
    (hz : magBits (div a b) ≤ magBits onePat) : scaled (smallAngle (div a b)) ≤ 0 := by
  obtain ⟨hmag, hsign⟩ := smallAngle_spec hz
  have hbm := magBits_ne_zero hb (eq_zero_of_lt_zero hbneg)
  rw [signOf_div ha hb hbm, signOf_of_lt_zero hbneg] at hsign
  cases hs : signOf a with
  | false =>
    have hneg : signOf (smallAngle (div a b)) = true := by rw [hsign, hs]; rfl
    rw [scaled, if_pos hneg]
    omega
  | true =>
    have hdiv : magBits (div a b) = 0 := by
      rw [magBits_div ha hb hbm, magnitude_of_magBits_eq_zero (magBits_eq_zero_of_not_lt_zero ha hapos hs),
        Nat.zero_mul, roundMag_zero]
    exact (scaled_eq_zero (by omega)).le

/-- The small approximation where PI is taken from it: the quotient of two negative numbers is not
negative. -/
theorem scaled_smallAngle_nonneg {a b : Pattern} (ha : isFinite a = true) (hb : isFinite b = true)
    (hbneg : lt b 0#64 = true) (haneg : lt a 0#64 = true)
    (hz : magBits (div a b) ≤ magBits onePat) : 0 ≤ scaled (smallAngle (div a b)) := by
  have hsign : signOf (smallAngle (div a b)) = false := by
    rw [(smallAngle_spec hz).2, signOf_div ha hb (magBits_ne_zero hb (eq_zero_of_lt_zero hbneg)),
      signOf_of_lt_zero hbneg, signOf_of_lt_zero haneg]
    rfl
  rw [scaled_of_not_signOf hsign]
  exact Int.natCast_nonneg _

/-- The approximation for a small quotient, corrected by PI on the left half plane (41_carrier_tracker.md
R129). -/
theorem smallAngle_within_pi {a b r : Pattern} (ha : isFinite a = true) (hb : isFinite b = true)
    (hz : magBits (div a b) ≤ magBits onePat)
    (hr : (if lt b 0#64 = true then
      (if lt a 0#64 = true then sub (smallAngle (div a b)) piPat else add (smallAngle (div a b)) piPat)
      else smallAngle (div a b)) = r) :
    le (neg piPat) r = true ∧ le r piPat = true := by
  subst hr
  have hone := (smallAngle_spec hz).1.trans hz
  have hq := isFinite_of_le_one hone
  obtain ⟨hlow, hhigh⟩ := scaled_mem_one hone
  have hpi := scaled_one_le_pi
  split
  · rename_i hbneg
    split
    · rename_i haneg
      exact sub_within_pi hq (scaled_smallAngle_nonneg ha hb hbneg haneg hz) (by omega)
    · rename_i hapos
      have hnonpos := scaled_smallAngle_nonpos ha hb hbneg hapos hz
      exact add_within_pi hq (by decide) (by omega) (by omega)
  · exact within_pi hq (by omega) (by omega)

/-- The approximation for a large quotient, corrected by PI on the lower half plane (41_carrier_tracker.md
R130). -/
theorem largeAngle_within_pi {z : Pattern} (hz : isFinite z = true)
    (hone : magBits onePat ≤ magBits z) :
    (le (neg piPat) (sub (largeAngle z) piPat) = true ∧
      le (sub (largeAngle z) piPat) piPat = true) ∧
    (le (neg piPat) (largeAngle z) = true ∧ le (largeAngle z) piPat = true) := by
  obtain ⟨hl, hh⟩ := largeAngle_between hz hone
  have hfin := isFinite_of_between (by decide) (by decide) hl hh
  have hlow : scaled 0#64 ≤ scaled (largeAngle z) := (key_le_iff (by decide) hfin).1 hl
  have hhigh := (key_le_iff hfin (by decide)).1 hh
  have hzero : scaled 0#64 = 0 := by decide
  exact ⟨sub_within_pi hfin (by omega) hhigh, within_pi hfin (by omega) hhigh⟩

/-- Settles O18: on the vertical axis the result is one of three constants; elsewhere the approximation for
the quotient's size stays within PI, and an infinite quotient has no finite result. -/
theorem fastAtan2StaysWithinPi : Obligations.FastAtan2StaysWithinPi := by
  intro y x hy hx hfin
  obtain ⟨a, rfl, ha⟩ := ops_isFinite_iff.1 hy
  obtain ⟨b, rfl, hb⟩ := ops_isFinite_iff.1 hx
  cases hb0 : Binary64.eq b 0#64 with
  | true =>
    rw [fastAtan2_vertical (x := .bits b) hb0]
    split
    · decide
    · split
      · decide
      · decide
  | false =>
    have hnan := isNaN_div ha hb (magBits_ne_zero hb hb0)
    cases hz : lt (Binary64.abs (div a b)) onePat with
    | true =>
      rw [fastAtan2_small hb0 hz]
      exact smallAngle_within_pi ha hb ((lt_abs_one_iff hnan).1 hz).le rfl
    | false =>
      have hone : magBits onePat ≤ magBits (div a b) :=
        Nat.le_of_not_lt fun hlt => Bool.eq_false_iff.1 hz ((lt_abs_one_iff hnan).2 hlt)
      rw [fastAtan2_large hb0 hz] at hfin ⊢
      obtain hzfin | hzinf := isFinite_or_isInf hnan
      · obtain ⟨hcorrected, hplain⟩ := largeAngle_within_pi hzfin hone
        split
        · exact hcorrected
        · exact hplain
      · obtain ⟨hnot, hnotSub⟩ := largeAngle_of_isInf hzinf
        split at hfin
        · exact absurd hfin (by rw [ops_isFinite_bits, hnotSub]; exact Bool.false_ne_true)
        · exact absurd hfin (by rw [ops_isFinite_bits, hnot]; exact Bool.false_ne_true)

end Sys2Proof.Machine
end
